-- ==== Sys2Proof/Word.lean ====
section
/-! DEFINITION. The machine word: one byte, as every register, memory cell and address of the core (R7, R9). -/

namespace Sys2Proof

/-- A byte, 0 to 255, unsigned, every arithmetic result reduced modulo 256 (R7, R9).
Bit 0 is the least significant bit (00_scope.md section 5). -/
abbrev Byte := BitVec 8

end Sys2Proof
end

