-- ==== Sys2Proof/Machine/Flags.lean ====
section
/-! DEFINITION. The ALU's two operations and their carry and borrow: exact on integers, then narrowed to 8 bits (R132). -/

namespace Sys2Proof.Machine

/-- ADD's `sum`, 0 to 510, an unbounded integer (R130). -/
def addSum (a m : Byte) : Nat := a.toNat + m.toNat

/-- ADD's result: `sum & 0xFF` (R130). -/
def addResult (a m : Byte) : Byte := BitVec.ofNat 8 (addSum a m)

/-- ADD's carry: `sum > 255` (R130, R28). -/
def addCarry (a m : Byte) : Bool := decide (255 < addSum a m)

/-- SUB's `diff`, -255 to 255, an unbounded integer (R131). -/
def subDiff (a m : Byte) : Int := (a.toNat : Int) - (m.toNat : Int)

/-- SUB's result: `diff & 0xFF`, that is `diff` modulo 256 (R131). -/
def subResult (a m : Byte) : Byte := BitVec.ofInt 8 (subDiff a m)

/-- SUB's carry is a borrow: `diff < 0` (R131, R28). -/
def subBorrow (a m : Byte) : Bool := decide (subDiff a m < 0)

end Sys2Proof.Machine
end

