-- ==== Sys2Proof/Syntax.lean ====
section
/-! DEFINITION. The instructions as syntax: the 11 mnemonics of R2 and R73, and the undefined opcode bytes of R75. -/

namespace Sys2Proof

/-- The 11 mnemonics, in the order of R73's table (R2: "and no other"). -/
inductive Mnemonic where
  | nop | lda | add | sub | sta | ldi | jmp | jc | jz | out | hlt
deriving DecidableEq, Repr

/-- Every mnemonic once, in the order of R73's table. -/
def Mnemonic.all : List Mnemonic :=
  [.nop, .lda, .add, .sub, .sta, .ldi, .jmp, .jc, .jz, .out, .hlt]

/-- One constructor per row of spec/opcode_table.json.
The operand byte `n` is used whole (R72): a data memory address for LDA, ADD, SUB and STA, an immediate value for
LDI, an instruction memory address for JMP, JC and JZ. -/
inductive Instr where
  /-- NOP, R170. -/
  | nop
  /-- LDA `n`, R110. -/
  | lda (n : Byte)
  /-- ADD `n`, R130. -/
  | add (n : Byte)
  /-- SUB `n`, R131. -/
  | sub (n : Byte)
  /-- STA `n`, R111. -/
  | sta (n : Byte)
  /-- LDI `n`, R112. -/
  | ldi (n : Byte)
  /-- JMP `n`, R150. -/
  | jmp (n : Byte)
  /-- JC `n`, R151. -/
  | jc (n : Byte)
  /-- JZ `n`, R152. -/
  | jz (n : Byte)
  /-- OUT, R171. -/
  | out
  /-- HLT, R172. -/
  | hlt
  /-- An undefined opcode byte `op`, R173: the table's row "(undefined)". -/
  | undefined (op : Byte)
deriving DecidableEq, Repr

/-- The mnemonic of an instruction; an undefined opcode byte has none. -/
def Instr.mnemonic? : Instr → Option Mnemonic
  | .nop => some .nop
  | .lda _ => some .lda
  | .add _ => some .add
  | .sub _ => some .sub
  | .sta _ => some .sta
  | .ldi _ => some .ldi
  | .jmp _ => some .jmp
  | .jc _ => some .jc
  | .jz _ => some .jz
  | .out => some .out
  | .hlt => some .hlt
  | .undefined _ => none

end Sys2Proof
end

