-- ==== Sys2Proof/WellFormed.lean ====
section
/-! DEFINITION. Well-formed instructions: the only field with a restricted value is the byte of an undefined opcode. -/

namespace Sys2Proof

/-- The undefined opcode bytes as R75 lists them: "10 to 14 and 16 to 255, 245 values in all". -/
def isUndefinedByte (op : Byte) : Bool :=
  (decide (10 ≤ op.toNat) && decide (op.toNat ≤ 14)) || decide (16 ≤ op.toNat)

/-- An operand byte may be any byte (R72, R52, R54); an undefined opcode byte is one of R75's 245 values. -/
def Instr.wellFormed : Instr → Bool
  | .nop => true
  | .lda _ => true
  | .add _ => true
  | .sub _ => true
  | .sta _ => true
  | .ldi _ => true
  | .jmp _ => true
  | .jc _ => true
  | .jz _ => true
  | .out => true
  | .hlt => true
  | .undefined op => isUndefinedByte op

end Sys2Proof
end

