-- ==== Sys2Proof/Decode.lean ====
section
/-! DEFINITION. The opcode map of R73 in one table, the decoder over bytes, the encoder, and the host's table-word entry. -/

namespace Sys2Proof

/-- One row of the opcode map: the opcode byte and the number of operand bytes, 0 or 1 (R70, R73). -/
structure OpcodeRow where
  opcode : Byte
  operandCount : Nat
deriving DecidableEq, Repr

/-- The opcode map of R73, the ONE place where the opcode numbers stand (93 I1). -/
def Mnemonic.row : Mnemonic → OpcodeRow
  | .nop => ⟨0x00, 0⟩
  | .lda => ⟨0x01, 1⟩
  | .add => ⟨0x02, 1⟩
  | .sub => ⟨0x03, 1⟩
  | .sta => ⟨0x04, 1⟩
  | .ldi => ⟨0x05, 1⟩
  | .jmp => ⟨0x06, 1⟩
  | .jc => ⟨0x07, 1⟩
  | .jz => ⟨0x08, 1⟩
  | .out => ⟨0x09, 0⟩
  | .hlt => ⟨0x0F, 0⟩

/-- The opcode byte of a mnemonic (R73). -/
def Mnemonic.opcode (m : Mnemonic) : Byte := m.row.opcode

/-- The number of operand bytes of a mnemonic (R70, R73). -/
def Mnemonic.operandCount (m : Mnemonic) : Nat := m.row.operandCount

/-- The decoder's lookup: "the instruction whose opcode equals `instructionRegister`", all 8 bits compared (R71). -/
def Mnemonic.ofOpcode (b : Byte) : Option Mnemonic :=
  Mnemonic.all.find? fun m => m.opcode == b

/-- The instruction of a mnemonic with operand byte `n`; a one-byte instruction has no operand (R70, R72). -/
def Mnemonic.toInstr : Mnemonic → Byte → Instr
  | .nop, _ => .nop
  | .lda, n => .lda n
  | .add, n => .add n
  | .sub, n => .sub n
  | .sta, n => .sta n
  | .ldi, n => .ldi n
  | .jmp, n => .jmp n
  | .jc, n => .jc n
  | .jz, n => .jz n
  | .out, _ => .out
  | .hlt, _ => .hlt

/-- The length in bytes decided by the first byte alone: 2 for opcodes 1 to 8, else 1 (R74). -/
def lengthOfOpcode (b : Byte) : Nat :=
  match Mnemonic.ofOpcode b with
  | some m => 1 + m.operandCount
  | none => 1

/-- The instruction of an opcode byte and the byte after it, total over all 256 opcode bytes (R75, R76). -/
def decodeBytes (b n : Byte) : Instr :=
  match Mnemonic.ofOpcode b with
  | some m => m.toInstr n
  | none => .undefined b

/-- Why a list of bytes holds no whole instruction. Neither can happen in a step, which always has two bytes (R83). -/
inductive DecodeError where
  /-- There is no opcode byte. -/
  | noOpcodeByte
  /-- A two-byte instruction's opcode `op` is the last byte of the list. -/
  | noOperandByte (op : Byte)
deriving DecidableEq, Repr

/-- The decoder over a list of bytes: the first instruction and the bytes after it (R70, R74, R75). -/
def decode : List Byte → Except DecodeError (Instr × List Byte)
  | [] => .error .noOpcodeByte
  | b :: rest =>
    if lengthOfOpcode b = 1 then .ok (decodeBytes b 0, rest)
    else
      match rest with
      | [] => .error (.noOperandByte b)
      | n :: rest' => .ok (decodeBytes b n, rest')

/-- The encoder: format F0 is the opcode byte, format F1 the opcode byte and then the operand byte (R70). -/
def encode : Instr → List Byte
  | .nop => [Mnemonic.nop.opcode]
  | .lda n => [Mnemonic.lda.opcode, n]
  | .add n => [Mnemonic.add.opcode, n]
  | .sub n => [Mnemonic.sub.opcode, n]
  | .sta n => [Mnemonic.sta.opcode, n]
  | .ldi n => [Mnemonic.ldi.opcode, n]
  | .jmp n => [Mnemonic.jmp.opcode, n]
  | .jc n => [Mnemonic.jc.opcode, n]
  | .jz n => [Mnemonic.jz.opcode, n]
  | .out => [Mnemonic.out.opcode]
  | .hlt => [Mnemonic.hlt.opcode]
  | .undefined op => [op]

/-- The number of bytes an instruction occupies: `1 + operandCount`, and 1 for an undefined byte (R74). -/
def Instr.length (i : Instr) : Nat :=
  match i.mnemonic? with
  | some m => 1 + m.operandCount
  | none => 1

/-- Byte `k` of a word numbered as spec/opcode_table.json numbers it: byte 0 is bits 7..0, byte 1 bits 15..8, and
every bit from `nbits` up is 0. -/
def tableWordByte (nbits w k : Nat) : Byte :=
  BitVec.ofNat 8 ((w % 2 ^ nbits) / 256 ^ k)

/-- The instruction the decoder reads from a table word laid out with its first byte at the lower address (R53). -/
def decodeTableWord (nbits w : Nat) : Option Instr :=
  match decode [tableWordByte nbits w 0, tableWordByte nbits w 1] with
  | .ok (i, _) => some i
  | .error _ => none

end Sys2Proof
end

