-- ==== Sys2Proof/Config.lean ====
section
/-! DEFINITION. What the spec leaves open: the two parameters of R8, and the free values of the presentation-only state. -/

namespace Sys2Proof

/-- `PC_END_POLICY` (R8, R222, 92 D6): whether the host's run loop stops when `PC` runs sequentially past
address 255. It is an argument of every host operation that depends on it, so a claim can hold for both values. -/
inductive PcEndPolicy where
  | wrap
  | stopAtEnd
deriving DecidableEq, Repr, Inhabited

/-- The host scheduler's rate (R38, R219), a positive real, held as plain data that names it; `ClockRate.hz` is the
real itself (DESIGN CHOICE, log 6). -/
inductive ClockRate where
  /-- A rational rate, named by its value. -/
  | rational (hz : { hz : Rat // 0 < hz })
  /-- Any positive real, named by a number: `Config.realRate k`. -/
  | real (k : Nat)
deriving DecidableEq, Repr

/-- The record `aluState` of R36: {operation tag, operandA, operandB, result}.
DESIGN CHOICE (log 3): the spec gives neither the set of tags nor whether `result` is masked, so the tag is an
uninterpreted number and the other fields are unbounded integers. -/
structure AluState where
  tag : Nat
  operandA : Int
  operandB : Int
  result : Int
deriving DecidableEq, Repr, Inhabited

namespace Config

/-- FREE VALUE (log 3): the contents of `aluState`, "any value" (R36, 92 D10), as an uninterpreted function of
the counter `State.freeIx` that every step and every reset advances. -/
opaque freeAluState : Nat → AluState

/-- FREE VALUE (log 6): the positive reals that the numbered rates name. Nothing is known of them but that they are
positive, so each may be any positive real, a rational or an irrational one. -/
noncomputable opaque realRate : Nat → { hz : ℝ // 0 < hz }

/-- The rate that `State.reset` is constructed with: the numbered rate 0, any positive real. `CLOCK_RATE_HZ_INIT` itself
is the argument of `State.construct` (R8, R211, 92 D26). -/
def clockRateHzInit : ClockRate := .real 0

/-- FREE VALUE (log 7): which source line the address-to-source-line map gives for an address that several
lines map; 91 N14 says that a reader must not assume either answer. The argument is the list of candidate lines. -/
opaque sourceLinePick : List Nat → Nat

end Config

/-- The rate in Hz that a `ClockRate` names, "a positive real" (R38). Nothing that a step does reads it (R89). -/
noncomputable def ClockRate.hz : ClockRate → { hz : ℝ // 0 < hz }
  | .rational q => ⟨(q.val : ℝ), by exact_mod_cast q.property⟩
  | .real k => Config.realRate k

end Sys2Proof
end

