-- ==== Sys2Proof/Machine/State.lean ====
section
/-! DEFINITION. All the state the spec gives the machine, as plain data, and the state after construction. -/

namespace Sys2Proof.Machine

/-- The faults of a step. There are none: "The core raises no synchronous exception" (R190), and the step "never
faults" (R88). So no meaning can raise one. -/
inductive Fault where
deriving DecidableEq, Repr

/-- The refusals of a step. -/
inductive Refusal where
  /-- Raised by `exec`'s arm of an instruction that has no meaning in the model yet. Safe: the model stops where the
  hardware goes on. No arm raises it in this model. -/
  | notModelled (mnemonic : String)
deriving DecidableEq, Repr

/-- A memory of 256 bytes (R50): a list of (address, byte) pairs in one canonical form (`Memory.wf` in Ops.lean). An
address that is not listed reads as 0, the reset contents of both memories (R32, R33). -/
abbrev Memory := List Host.Cell

/-- The tags of `activeUnits` (R35), in the order R35 lists them. -/
inductive UnitTag where
  | alu | instructionMemory | dataMemory | registerA | registerB
  | instructionRegister | programCounter | outputRegister
deriving DecidableEq, Repr

/-- What a step returns to its caller (R85): the continue signal or the halt signal. -/
inductive Signal where
  | cont
  | halt
deriving DecidableEq, Repr

/-- The host's lifecycle states (R215); the core's state does not record them. -/
inductive Lifecycle where
  | idle
  | loaded
  | running
  | haltedOrStopped
deriving DecidableEq, Repr

/-- The state of the host's scheduler (R38, R215, R102): not core state, and no step reads or writes it. -/
structure Scheduler where
  /-- `running` (R38). -/
  running : Bool
  /-- `clockRateHz` (R38, R219). -/
  clockRateHz : ClockRate
  /-- The lifecycle state (R215). -/
  lifecycle : Lifecycle
  /-- The address-to-source-line map (R102): (byte address, 0-based source line), in source order. -/
  sourceMap : List (Nat × Nat)
deriving DecidableEq, Repr

/-- The whole machine. `a` to `dm` are the architectural state of 10_state.md, `activeUnits` to
`currentDataAddress` its presentation-only state, `signal` and `seqOvf` what the last step returned, `freeIx` the
model's own counter of free values, and `host` the host's scheduler. -/
structure State where
  /-- `A`, the accumulator (R20). -/
  a : Byte
  /-- `B`, which no instruction reads or writes (R21). -/
  b : Byte
  /-- `PC`, the address of the next opcode byte (R23). -/
  pc : Byte
  /-- `IR`, the most recently fetched opcode byte (R26). -/
  ir : Byte
  /-- `Z`, the zero flag (R27). -/
  z : Bool
  /-- `C`, the carry flag (R28). -/
  c : Bool
  /-- `OUT`, the output register (R31). -/
  out : Byte
  /-- `IM`, the instruction memory (R32). -/
  im : Memory
  /-- `DM`, the data memory (R33). -/
  dm : Memory
  /-- `activeUnits` (R35), a set held as a list in `UnitTag`'s order with no repeats. -/
  activeUnits : List UnitTag
  /-- `aluState` (R36): any value. -/
  aluState : AluState
  /-- `currentDataAddress` (R37), null as `none`. -/
  currentDataAddress : Option Byte
  /-- The signal the last step returned (R85). -/
  signal : Signal
  /-- The `seqovf` signal the last step reported (R86). -/
  seqOvf : Bool
  /-- The model's own: how many free values have been drawn (log 3). -/
  freeIx : Nat
  /-- The host's scheduler, outside the core (R38). -/
  host : Scheduler
deriving DecidableEq, Repr

/-- The machine at construction, which is the reset state (R210, R211), with `CLOCK_RATE_HZ_INIT` as its argument (R8).
`aluState` is unspecified (R36): a free value. `signal` and `seqOvf` before any step are a DESIGN CHOICE (log 2), the
empty source map is one too (log 7), and so is the counter's start (log 3). -/
def State.construct (clockRateHzInit : ClockRate) : State where
  a := 0
  b := 0
  pc := 0
  ir := 0
  z := false
  c := false
  out := 0
  im := []
  dm := []
  activeUnits := [.programCounter]
  aluState := Config.freeAluState 0
  currentDataAddress := none
  signal := .cont
  seqOvf := false
  freeIx := 1
  host :=
    { running := false
      clockRateHz := clockRateHzInit
      lifecycle := .idle
      sourceMap := [] }

/-- The machine right after reset: constructed with a rate of which nothing is known but that it is positive. -/
def State.reset : State := State.construct Config.clockRateHzInit

end Sys2Proof.Machine
end

