-- ==== Sys2Proof/Machine/Ops.lean ====
section
/-! DEFINITION. The shared operations: the two memories, the fetch, the part of a step common to all instructions, register
writes, reset and load. The core takes no exception and returns from none (R190 to R195), so no such operation exists. -/

namespace Sys2Proof.Machine

/-! ### Memory -/

/-- What an address that is not listed reads as: 0, the reset value of every byte of `IM` and `DM` (R32, R33). -/
def Memory.unlisted : Byte := 0

/-- The byte at address `a`. -/
def Memory.read : Memory → Nat → Byte
  | [], _ => Memory.unlisted
  | (k, v) :: m, a => if a = k then v else Memory.read m a

/-- Put `v` before the cells `m`, or nothing where `v` is what an unlisted address reads as. -/
def Memory.cons (a : Nat) (v : Byte) (m : Memory) : Memory :=
  if v = Memory.unlisted then m else (a, v) :: m

/-- The memory with byte `v` at address `a`; the canonical form is kept. -/
def Memory.write : Memory → Nat → Byte → Memory
  | [], a, v => Memory.cons a v []
  | (k, w) :: m, a, v =>
    if a < k then Memory.cons a v ((k, w) :: m)
    else if a = k then Memory.cons a v m
    else (k, w) :: Memory.write m a v

/-- The canonical form from address `lo` up: addresses strictly rising, below 256 (R50), and no listed byte equal to
what an unlisted address reads as. -/
def Memory.wfFrom : Nat → Memory → Bool
  | _, [] => true
  | lo, (k, v) :: m =>
    decide (lo ≤ k) && decide (k < 256) && decide (v ≠ Memory.unlisted) && Memory.wfFrom (k + 1) m

/-- The canonical form of a memory. -/
def Memory.wf (m : Memory) : Bool := Memory.wfFrom 0 m

/-- Bytes written to successive addresses from `base` up: the copy of a program image into `IM` (R212). -/
def Memory.writeBytes : Memory → Nat → List Byte → Memory
  | m, _, [] => m
  | m, base, v :: vs => Memory.writeBytes (Memory.write m base v) (base + 1) vs

/-- `MemRead(a, 1)`: one byte of `DM` (R56). -/
def State.memRead (s : State) (a : Byte) : Byte := Memory.read s.dm a.toNat

/-- `MemWrite(a, 1, v)`: one byte of `DM` (R56). -/
def State.memWrite (a v : Byte) (s : State) : State := { s with dm := Memory.write s.dm a.toNat v }

/-- `IFetch(a)`: one byte of `IM` (R51). -/
def State.fetchByte (s : State) (a : Byte) : Byte := Memory.read s.im a.toNat

/-! ### Fetch and decode -/

/-- Write the instruction register (R26). -/
def State.writeIr (op : Byte) (s : State) : State := { s with ir := op }

/-- `IR <- IM[PC]` (R81). -/
def State.latchIr (s : State) : State := s.writeIr (s.fetchByte s.pc)

/-- The instruction at `PC`: its opcode byte is `IM[PC]` and its operand byte, where it has one,
`IM[(PC + 1) mod 256]` (R83). -/
def State.fetchInstr (s : State) : Instr := decodeBytes (s.fetchByte s.pc) (s.fetchByte (s.pc + 1))

/-! ### What every instruction does -/

/-- A set of units as a list in `UnitTag`'s order with no repeats (R35). -/
def unitSet (l : List UnitTag) : List UnitTag :=
  [UnitTag.alu, .instructionMemory, .dataMemory, .registerA, .registerB,
    .instructionRegister, .programCounter, .outputRegister].filter fun u => decide (u ∈ l)

/-- The units of the fetch, R87's `F`. -/
def fetchUnits : List UnitTag := [.instructionMemory, .programCounter, .instructionRegister]

/-- The units of R87's table, `U(ins)`. -/
def executeUnits : Mnemonic → List UnitTag
  | .lda => [.registerA, .dataMemory]
  | .add => [.registerA, .dataMemory]
  | .sub => [.registerA, .dataMemory]
  | .sta => [.registerA, .dataMemory]
  | .ldi => [.registerA]
  | .out => [.outputRegister, .registerA]
  | .nop => []
  | .jmp => []
  | .jc => []
  | .jz => []
  | .hlt => []

/-- `activeUnits` after a step: `F ∪ {alu} ∪ U(ins)`, and `F` after an undefined byte (R87). -/
def unitsOf (i : Instr) : List UnitTag :=
  match i.mnemonic? with
  | some m => unitSet (fetchUnits ++ [.alu] ++ executeUnits m)
  | none => unitSet fetchUnits

/-- Whether a sequential advance by `len` from address `p` passes address 255 (R86). -/
def passesEnd (p : Byte) (len : Nat) : Bool := decide (255 < p.toNat + len)

/-- What every step does before `Execute` (R80): the pre-advance of `PC` past the instruction modulo 256 (R84, R82),
`activeUnits` (R87), `seqovf` for a step that no jump redirects (R86), and the continue signal (R85). `aluState` takes
a free value (R36, log 3). -/
def State.enter (i : Instr) (s : State) : State :=
  { s with
    pc := s.pc + BitVec.ofNat 8 i.length
    activeUnits := unitsOf i
    aluState := Config.freeAluState s.freeIx
    freeIx := s.freeIx + 1
    signal := .cont
    seqOvf := passesEnd s.pc i.length }

/-! ### What an instruction writes -/

/-- Write the accumulator, and `Z <- (A == 0)` on the value just written (R27). -/
def State.writeA (v : Byte) (s : State) : State := { s with a := v, z := decide (v = 0) }

/-- Write the carry flag (R28). -/
def State.writeCarry (b : Bool) (s : State) : State := { s with c := b }

/-- Write the output register (R31). -/
def State.writeOut (v : Byte) (s : State) : State := { s with out := v }

/-- `currentDataAddress <- n` (R37). -/
def State.touch (n : Byte) (s : State) : State := { s with currentDataAddress := some n }

/-- A taken jump: it overwrites the pre-advanced `PC` (R84), and its step reports no sequential overflow (R86). -/
def State.jumpTo (n : Byte) (s : State) : State := { s with pc := n, seqOvf := false }

/-- A conditional jump, taken where `taken` is true; else `PC` keeps the pre-advanced value (R151, R152). -/
def State.jumpIf (taken : Bool) (n : Byte) (s : State) : State :=
  match taken with
  | true => s.jumpTo n
  | false => s

/-- The step returns the halt signal (R85); no core state changes. -/
def State.raiseHalt (s : State) : State := { s with signal := .halt }

/-! ### Reset and load of the core -/

/-- The reset of R210, on any state. `aluState` is unspecified (R36): a free value. The host's scheduler, with its
source map, is not the core's and stays (R210). -/
def State.coreReset (s : State) : State :=
  { State.reset with
    aluState := Config.freeAluState s.freeIx
    freeIx := s.freeIx + 1
    host := s.host }

/-- The core's part of `load` (R212): reset, then `IM[i] <- bytes[i]`. The bound of R213 is the host's check. -/
def State.coreLoad (image : List Byte) (s : State) : State :=
  { s.coreReset with im := Memory.writeBytes s.coreReset.im 0 image }

end Sys2Proof.Machine
end

