-- ==== Sys2Proof/Machine/Operands.lean ====
section
/-! DEFINITION. The operand forms: the two addressing modes of R113 and the jump target of R153. -/

namespace Sys2Proof.Machine

/-- Absolute direct, `ea = n`: the operand byte is the data memory address (R113, R59). -/
def effectiveAddress (n : Byte) : Byte := n

/-- The value of a direct operand: `MemRead(n, 1)`, moved with no extension (R113, R114). -/
def directOperand (n : Byte) (s : State) : Byte := s.memRead (effectiveAddress n)

/-- Immediate: the operand byte is the value (R113), never extended, scaled or shifted (R72). -/
def immediateOperand (n : Byte) : Byte := n

/-- A jump target: the absolute instruction memory address, whole from the operand byte (R153). -/
def jumpTarget (n : Byte) : Byte := n

end Sys2Proof.Machine
end

