-- ==== Sys2Proof/Machine/Alu.lean ====
section
/-! DEFINITION. The meanings of ADD and SUB (41_alu.md). -/

namespace Sys2Proof.Machine

/-- ADD (R130): `A <- (A + DM[n]) & 0xFF`, `C` the carry, `Z` from the masked result. The incoming `C` is not added. -/
def execAdd (n : Byte) (s : State) : Host.Outcome State Fault Refusal :=
  .next ((((s.enter (.add n)).touch (effectiveAddress n)).writeA (addResult s.a (directOperand n s))).writeCarry
    (addCarry s.a (directOperand n s)))

/-- SUB (R131): `A <- (A - DM[n]) & 0xFF`, `C` the borrow, `Z` from the masked result. The incoming `C` is not
subtracted. -/
def execSub (n : Byte) (s : State) : Host.Outcome State Fault Refusal :=
  .next ((((s.enter (.sub n)).touch (effectiveAddress n)).writeA (subResult s.a (directOperand n s))).writeCarry
    (subBorrow s.a (directOperand n s)))

end Sys2Proof.Machine
end

