-- ==== Sys2Proof/Machine/ControlFlow.lean ====
section
/-! DEFINITION. The meanings of JMP, JC and JZ (42_control_flow.md). -/

namespace Sys2Proof.Machine

/-- JMP (R150): `PC <- n`. -/
def execJmp (n : Byte) (s : State) : Host.Outcome State Fault Refusal :=
  .next ((s.enter (.jmp n)).jumpTo (jumpTarget n))

/-- JC (R151): `if C: PC <- n`, else `PC` keeps the pre-advanced value. -/
def execJc (n : Byte) (s : State) : Host.Outcome State Fault Refusal :=
  .next ((s.enter (.jc n)).jumpIf s.c (jumpTarget n))

/-- JZ (R152): `if Z: PC <- n`, else `PC` keeps the pre-advanced value. -/
def execJz (n : Byte) (s : State) : Host.Outcome State Fault Refusal :=
  .next ((s.enter (.jz n)).jumpIf s.z (jumpTarget n))

end Sys2Proof.Machine
end

