-- ==== Sys2Proof/Machine/LoadStore.lean ====
section
/-! DEFINITION. The meanings of LDA, STA and LDI (40_load_store.md). -/

namespace Sys2Proof.Machine

/-- LDA (R110): `A <- DM[n]`, `Z` from the new `A`; `C` unchanged. -/
def execLda (n : Byte) (s : State) : Host.Outcome State Fault Refusal :=
  .next (((s.enter (.lda n)).touch (effectiveAddress n)).writeA (directOperand n s))

/-- STA (R111): `DM[n] <- A`; no flag is written. -/
def execSta (n : Byte) (s : State) : Host.Outcome State Fault Refusal :=
  .next (((s.enter (.sta n)).touch (effectiveAddress n)).memWrite (effectiveAddress n) s.a)

/-- LDI (R112): `A <- n`, `Z` from the new `A`; `C` unchanged, no data memory access. -/
def execLdi (n : Byte) (s : State) : Host.Outcome State Fault Refusal :=
  .next ((s.enter (.ldi n)).writeA (immediateOperand n))

end Sys2Proof.Machine
end

