-- ==== Sys2Proof/Machine/System.lean ====
section
/-! DEFINITION. The meanings of NOP, OUT, HLT and the undefined opcode bytes (43_system.md). -/

namespace Sys2Proof.Machine

/-- NOP (R170): only the step's own effects. -/
def execNop (s : State) : Host.Outcome State Fault Refusal :=
  .next (s.enter .nop)

/-- OUT (R171): `OUT <- A`; no flag is written. -/
def execOut (s : State) : Host.Outcome State Fault Refusal :=
  .next ((s.enter .out).writeOut s.a)

/-- HLT (R172): the halt signal; the core keeps no halted state, and `PC` is past the HLT. -/
def execHlt (s : State) : Host.Outcome State Fault Refusal :=
  .next (s.enter .hlt).raiseHalt

/-- An undefined opcode byte (R173): `IR <- op`, `PC <- (PC + 1) mod 256`, continue. -/
def execUndefined (op : Byte) (s : State) : Host.Outcome State Fault Refusal :=
  .next ((s.writeIr op).enter (.undefined op))

end Sys2Proof.Machine
end

