-- ==== Sys2Proof/Machine/Step.lean ====
section
/-! DEFINITION. One fetch-decode-execute cycle (R80), and the placing of a word where the next step fetches it. -/

namespace Sys2Proof.Machine

/-- The step of R80: `IR <- IM[PC]`, then the instruction at `PC` is executed. -/
def step (s : State) : Host.Outcome State Fault Refusal :=
  exec s.fetchInstr s.latchIr

/-- `s` with the word `w` of spec/opcode_table.json stored in `IM` at `PC` and `(PC + 1) mod 256`, where the next step
fetches it. It stands for the host's `load`, by which alone a program gets into `IM` (R65; log 4). -/
def State.withFetchWord (s : State) (nbits w : Nat) : State :=
  { s with
    im :=
      Memory.write (Memory.write s.im s.pc.toNat (tableWordByte nbits w 0))
        (s.pc + 1).toNat (tableWordByte nbits w 1) }

end Sys2Proof.Machine
end

