-- ==== Sys2Proof/Machine/Assembler.lean ====
section
/-! DEFINITION. The two-pass assembler and the disassembler: what program image a source text denotes (R90 to R104). -/

namespace Sys2Proof

/-- The name of a mnemonic (R73). -/
def Mnemonic.name : Mnemonic → String
  | .nop => "NOP"
  | .lda => "LDA"
  | .add => "ADD"
  | .sub => "SUB"
  | .sta => "STA"
  | .ldi => "LDI"
  | .jmp => "JMP"
  | .jc => "JC"
  | .jz => "JZ"
  | .out => "OUT"
  | .hlt => "HLT"

namespace Assembler

/-- A token, a label name or a line: characters of the source text. -/
abbrev Token := List Char

/-! ### Lines and tokens -/

/-- The lines of a text, "newline-separated" (R90). -/
def splitLines : List Char → List Token
  | [] => [[]]
  | ch :: cs =>
    if ch = '\n' then [] :: splitLines cs
    else
      match splitLines cs with
      | [] => [[ch]]
      | l :: ls => (ch :: l) :: ls

/-- Lines "numbered from 0 in the original text" (R90). -/
def numberFrom : Nat → List Token → List (Nat × Token)
  | _, [] => []
  | k, l :: ls => (k, l) :: numberFrom (k + 1) ls

/-- A comment runs from `;` to the end of the line, wherever the `;` stands (R91). -/
def stripComment (l : Token) : Token := l.takeWhile fun ch => ch != ';'

/-- The whitespace that delimits tokens within a line (R90; DEDUCED, log 8): Lean's space, tab and return characters. -/
def isBlank (ch : Char) : Bool := ch.isWhitespace

/-- The tokens of a text, `cur` being the token being read, last character first (R90: "whitespace-delimited"). -/
def tokensFrom : Token → List Char → List Token
  | cur, [] => if cur = [] then [] else [cur.reverse]
  | cur, ch :: cs =>
    if isBlank ch then
      if cur = [] then tokensFrom [] cs else cur.reverse :: tokensFrom [] cs
    else tokensFrom (ch :: cur) cs

/-- The whitespace-delimited tokens of a text (R90). -/
def tokens (l : List Char) : List Token := tokensFrom [] l

/-- A text with its surrounding whitespace removed. -/
def trim (l : List Char) : Token := ((l.dropWhile isBlank).reverse.dropWhile isBlank).reverse

/-- `[A-Za-z_][A-Za-z0-9_]*` (R92). -/
def isIdentifier : Token → Bool
  | [] => false
  | ch :: cs => (ch.isAlpha || ch == '_') && cs.all fun d => d.isAlphanum || d == '_'

/-- "A token of decimal digits only" (R94). -/
def isDecimal (t : Token) : Bool := !t.isEmpty && t.all Char.isDigit

/-- The number a decimal token denotes, before it is masked (R94). -/
def decimalValue (t : Token) : Nat := t.foldl (fun acc ch => 10 * acc + (ch.toNat - '0'.toNat)) 0

/-- A mnemonic's token, "matched case-insensitively" (R93). -/
def mnemonicOfToken (t : Token) : Option Mnemonic :=
  Mnemonic.all.find? fun m => m.name.toList == t.map Char.toUpper

/-! ### Errors -/

/-- What is wrong on a line of the source text, with the token concerned. -/
inductive Reason where
  /-- The text before the first `:` is no identifier (R92). -/
  | badLabel (t : Token)
  /-- The label is bound by an earlier line already (R92). -/
  | duplicateLabel (t : Token)
  /-- The token is none of the 11 names (R98). -/
  | unknownMnemonic (t : Token)
  /-- An instruction with an operand has none (R95). -/
  | missingOperand (m : Mnemonic)
  /-- A token stands after the operand (R95). -/
  | extraToken (t : Token)
  /-- The operand is neither a decimal literal nor a bound label (R99). -/
  | unresolvedOperand (t : Token)
  /-- The image would have `n` bytes, over 256 (R101). -/
  | imageTooLong (n : Nat)
deriving DecidableEq, Repr

/-- One entry of the error list: "(line, message)" (R100). -/
structure AsmError where
  line : Nat
  reason : Reason
deriving DecidableEq, Repr

/-! ### Pass 1 -/

/-- An instruction of the source text with its line, its byte address and its operand token (R96). -/
structure Item where
  line : Nat
  address : Nat
  mnemonic : Mnemonic
  operand : Option Token
deriving DecidableEq, Repr

/-- The size in bytes of an instruction, `1 + operandCount` (R96). -/
def Item.size (it : Item) : Nat := 1 + it.mnemonic.operandCount

/-- What pass 1 has gathered: the running byte address, the line of the first instruction that passed address 256, the
labels, the instructions that have their operand token, the source-line map and the errors. -/
structure Pass1 where
  address : Nat
  overflowLine : Option Nat
  labels : List (Token × Nat)
  items : List Item
  sourceMap : List (Nat × Nat)
  errors : List AsmError
deriving DecidableEq, Repr

/-- The start of pass 1: byte address 0, nothing bound (R96). -/
def Pass1.start : Pass1 := ⟨0, none, [], [], [], []⟩

/-- Bind a label to the current byte address (R92, R96), and map the address to the label's line (R102).
R92 and R102 speak of byte addresses 0 to 255. DESIGN CHOICE (log 7): a label at address 256, after a full image, has
its map entry under 256, which no `PC` reads. DEDUCED (log 8): as an operand it denotes 0. -/
def Pass1.bindLabel (line : Nat) (name : Token) (p : Pass1) : Pass1 :=
  if isIdentifier name = false then
    { p with errors := p.errors ++ [⟨line, .badLabel name⟩] }
  else if (p.labels.lookup name).isSome then
    { p with errors := p.errors ++ [⟨line, .duplicateLabel name⟩] }
  else
    { p with
      labels := p.labels ++ [(name, p.address)]
      sourceMap := p.sourceMap ++ [(p.address, line)] }

/-- The operand token an instruction takes: none where `operandCount` is 0, the first token where it is 1 (R95). -/
def operandTokens (m : Mnemonic) (ts : List Token) : Except Reason (Option Token) :=
  if m.operandCount = 0 then .ok none
  else
    match ts with
    | [] => .error (.missingOperand m)
    | t :: _ => .ok (some t)

/-- The tokens after the operand, each one an error; an instruction whose `operandCount` is 0 ignores them (R95). -/
def extraTokens (m : Mnemonic) (ts : List Token) : List Token :=
  if m.operandCount = 0 then [] else ts.drop 1

/-- An entry of the source-line map; a line that defines a label has its entry already (R102). -/
def addMapEntry (address line : Nat) (m : List (Nat × Nat)) : List (Nat × Nat) :=
  if (address, line) ∈ m then m else m ++ [(address, line)]

/-- The running address advances by an instruction's size (R96).
DESIGN CHOICE (log 8): an instruction whose operand is in error advances it too, and the first instruction that passes
address 256, in error or not, gives the too-long error (R101) its line. -/
def Pass1.advance (line : Nat) (m : Mnemonic) (p : Pass1) : Pass1 :=
  let address := p.address + (1 + m.operandCount)
  { p with
    address := address
    overflowLine := p.overflowLine <|> if address ≤ 256 then none else some line }

/-- The instruction on a line, if there is one (R95, R96); the running address advances by its size, and by nothing
for an unknown mnemonic (R98). An instruction with tokens after its operand keeps its operand, so that pass 2 reports
that one too where it does not resolve: "every error of a text is reported at once" (R99, R100). -/
def Pass1.addInstruction (line : Nat) (ts : List Token) (p : Pass1) : Pass1 :=
  match ts with
  | [] => p
  | t :: rest =>
    match mnemonicOfToken t with
    | none => { p with errors := p.errors ++ [⟨line, .unknownMnemonic t⟩] }
    | some m =>
      match operandTokens m rest with
      | .error r => { p.advance line m with errors := p.errors ++ [⟨line, r⟩] }
      | .ok operand =>
        { p.advance line m with
          items := p.items ++ [⟨line, p.address, m, operand⟩]
          sourceMap := addMapEntry p.address line p.sourceMap
          errors := p.errors ++ (extraTokens m rest).map fun t => ⟨line, .extraToken t⟩ }

/-- The label a line defines, if it has a `:` (R92), its comment removed (R91). -/
def lineLabel (l : Token) : Option Token :=
  let code := stripComment l
  if code.contains ':' then some (trim (code.takeWhile fun ch => ch != ':')) else none

/-- The tokens of a line's instruction: those after its label, or all of them, its comment removed (R91, R92). -/
def instructionTokens (l : Token) : List Token :=
  let code := stripComment l
  tokens (if code.contains ':' then (code.dropWhile fun ch => ch != ':').drop 1 else code)

/-- Pass 1 on one line: its label definition and then its instruction, where it has them (R92, R96). An empty line
changes nothing but keeps its number (R91). -/
def Pass1.addLine (p : Pass1) (numbered : Nat × Token) : Pass1 :=
  let labelled :=
    match lineLabel numbered.2 with
    | none => p
    | some name => p.bindLabel numbered.1 name
  labelled.addInstruction numbered.1 (instructionTokens numbered.2)

/-- Pass 1 over a text's lines in order (R96). -/
def pass1 (text : List Char) : Pass1 :=
  (numberFrom 0 (splitLines text)).foldl Pass1.addLine Pass1.start

/-! ### Pass 2 -/

/-- The byte an operand token denotes: a decimal literal masked to 8 bits, or a label's address (R94). -/
def resolveOperand (labels : List (Token × Nat)) (t : Token) : Option Byte :=
  if isDecimal t then some (BitVec.ofNat 8 (decimalValue t))
  else (labels.lookup t).map fun a => BitVec.ofNat 8 a

/-- The instruction of an item with its operand resolved, or why there is none (R97, R99). -/
def resolveItem (labels : List (Token × Nat)) (it : Item) : Except AsmError Instr :=
  match it.operand with
  | none => .ok (it.mnemonic.toInstr 0)
  | some t =>
    match resolveOperand labels t with
    | some n => .ok (it.mnemonic.toInstr n)
    | none => .error ⟨it.line, .unresolvedOperand t⟩

/-- The program of a list of items: the instructions that resolve, in order (R97). -/
def resolvedInstrs (labels : List (Token × Nat)) : List Item → List Instr
  | [] => []
  | it :: its =>
    match resolveItem labels it with
    | .ok i => i :: resolvedInstrs labels its
    | .error _ => resolvedInstrs labels its

/-- The errors of pass 2: the operands that do not resolve (R99). -/
def resolveErrors (labels : List (Token × Nat)) : List Item → List AsmError
  | [] => []
  | it :: its =>
    match resolveItem labels it with
    | .ok _ => resolveErrors labels its
    | .error e => e :: resolveErrors labels its

/-- The bytes of a program: each instruction's opcode byte and then its operand byte (R97, R70). -/
def encodeAll (is : List Instr) : List Byte := is.flatMap encode

/-- The error of an image over 256 bytes (R101).
DESIGN CHOICE (log 8): its line is that of the first instruction that passes address 256, and the bytes counted are
those of all instructions, the ones whose operand is in error included. -/
def lengthErrors (p : Pass1) : List AsmError :=
  match p.overflowLine with
  | none => []
  | some line => [⟨line, .imageTooLong p.address⟩]

/-! ### The assembler and the disassembler -/

/-- What an assembly yields: the program image and the address-to-source-line map (R97, R102). -/
structure Assembled where
  image : List Byte
  sourceMap : List (Nat × Nat)
deriving DecidableEq, Repr

/-- The assembler on a text's characters: every error of the text in one list, and no image where there is one
(R98, R100). -/
def assembleChars (text : List Char) : Except (List AsmError) Assembled :=
  let p := pass1 text
  let errors := p.errors ++ resolveErrors p.labels p.items ++ lengthErrors p
  if errors = [] then
    .ok { image := encodeAll (resolvedInstrs p.labels p.items), sourceMap := p.sourceMap }
  else .error errors

/-- The assembler (R90 to R103). -/
def assemble (text : String) : Except (List AsmError) Assembled := assembleChars text.toList

/-- Disassembly: a lookup of an opcode byte in R73's table; an undefined byte has no name and is no fault (R104). -/
def disassembleOpcode (b : Byte) : Option String := (Mnemonic.ofOpcode b).map Mnemonic.name

end Assembler

end Sys2Proof
end

