-- ==== Sys2Proof/Machine/HostControl.lean ====
section
/-! DEFINITION. The host's control operations: reset, load, step, run and its ticks, stop, the clock speed, the snapshot
(R210 to R223). -/

namespace Sys2Proof.Machine

/-- Why the host's operation is refused or has no move; the state does not change. -/
inductive HostRefusal where
  /-- `load` of an image over 256 bytes (R213). -/
  | imageTooLong (n : Nat)
  /-- `step()` while a run is in progress (R216, 93 I12). -/
  | stepDuringRun
  /-- A tick of a run when no run is in progress: the scheduler has no such event (R217, R218). -/
  | noRunInProgress
  /-- The source text has errors, so there is no image to load (R100). -/
  | assemblyFailed (errors : List Assembler.AsmError)
  /-- The core's step was refused; it never is (R88). -/
  | coreRefused (r : Refusal)
deriving DecidableEq, Repr

/-- `stop()` (R218): `running` is false after it, and a run that was in progress is over (R215); idempotent. -/
def State.hostStop (s : State) : State :=
  if s.host.running then { s with host := { s.host with running := false, lifecycle := .haltedOrStopped } } else s

/-- `reset()` (R210), preceded by `stop()` where a run is in progress (R214); the lifecycle is `idle` (R215). -/
def State.hostReset (s : State) : State :=
  let t := s.hostStop.coreReset
  { t with host := { t.host with lifecycle := .idle } }

/-- `load` of an image that fits (R212), preceded by `stop()` where a run is in progress (R214); the map is replaced
by the new program's (R102, R212) and the lifecycle is `loaded` (R215). -/
def State.loadImage (image : List Byte) (sourceMap : List (Nat × Nat)) (s : State) : State :=
  let t := s.hostStop.coreLoad image
  { t with host := { t.host with lifecycle := .loaded, sourceMap := sourceMap } }

/-- `load(bytes)` (R212), refused where the image is over 256 bytes (R213).
DESIGN CHOICE (log 7): the source map it puts in is an argument, any list, since the spec does not say what map an
image has that no assembly produced; `hostAssembleLoad` gives the assembly's own. -/
def hostLoad (image : List Byte) (sourceMap : List (Nat × Nat)) (s : State) : Except HostRefusal State :=
  if image.length ≤ 256 then .ok (s.loadImage image sourceMap) else .error (.imageTooLong image.length)

/-- Assemble a source text and load its image (R224); a text with an error loads nothing (R100). -/
def hostAssembleLoad (text : String) (s : State) : Except HostRefusal State :=
  match Assembler.assemble text with
  | .error es => .error (.assemblyFailed es)
  | .ok r => hostLoad r.image r.sourceMap s

/-- One step of the core as the host's operations see it. -/
def coreStep (s : State) : Except HostRefusal State :=
  match step s with
  | .next t => .ok t
  | .fault f => nomatch f
  | .refused r => .error (.coreRefused r)

/-- `step()` (R216): exactly one step; the host does not call it during a run. -/
def hostStep (s : State) : Except HostRefusal State :=
  if s.host.running then .error .stepDuringRun else coreStep s

/-- `run()` (R217): nothing where `running` is true, else `running` is true after it. -/
def State.hostRun (s : State) : State :=
  if s.host.running then s else { s with host := { s.host with running := true, lifecycle := .running } }

/-- Whether the step just performed ends a run: the halt signal (R217), or under `StopAtEnd` its `seqovf` (R222). -/
def endsRun (policy : PcEndPolicy) (s : State) : Bool :=
  decide (s.signal = .halt) || (decide (policy = .stopAtEnd) && s.seqOvf)

/-- One tick of a run (R217): a step, and then `stop()` where the step ends the run. -/
def hostTick (policy : PcEndPolicy) (s : State) : Except HostRefusal State :=
  if s.host.running then (coreStep s).map fun t => if endsRun policy t then t.hostStop else t
  else .error .noRunInProgress

/-- `setClockSpeed(hz)` (R219). -/
def State.hostSetClockSpeed (hz : ClockRate) (s : State) : State :=
  { s with host := { s.host with clockRateHz := hz } }

/-- The interval between two ticks of a run in milliseconds, `1000 / clockRateHz` (R217, R229). -/
noncomputable def tickPeriodMs (s : State) : ℝ := 1000 / s.host.clockRateHz.hz.val

/-- `getState()` (R40, R221): a copy of the state; plain data is never changed by a later step. -/
def getState (s : State) : State := s

/-- `currentSourceLine` (R102): the map's entry for `PC`, 0 if it has none; where several lines map the address, which
of them it gives is a free value (91 N14, log 7). -/
def currentSourceLine (s : State) : Nat :=
  match (s.host.sourceMap.filter fun e => decide (e.1 = s.pc.toNat)).map Prod.snd with
  | [] => 0
  | [l] => l
  | l :: l' :: ls =>
    ((l :: l' :: ls)[Config.sourceLinePick (l :: l' :: ls) % (ls.length + 2)]?).getD l

/-- The host's operations, each one atomic transition (R220). -/
inductive HostOp where
  | reset
  | load (image : List Byte) (sourceMap : List (Nat × Nat))
  | assembleLoad (text : String)
  | step
  | run
  | tick
  | stop
  | setClockSpeed (hz : ClockRate)
deriving DecidableEq, Repr

/-- One transition of the machine under its host (R220), or the refusal that leaves the state as it was. -/
def hostApply (policy : PcEndPolicy) (op : HostOp) (s : State) : Except HostRefusal State :=
  match op with
  | .reset => .ok s.hostReset
  | .load image sourceMap => hostLoad image sourceMap s
  | .assembleLoad text => hostAssembleLoad text s
  | .step => hostStep s
  | .run => .ok s.hostRun
  | .tick => hostTick policy s
  | .stop => .ok s.hostStop
  | .setClockSpeed hz => .ok (s.hostSetClockSpeed hz)

/-- `n` ticks of a run and nothing between them, each with the run still in progress. -/
def runTicks (policy : PcEndPolicy) : Nat → State → Except HostRefusal State
  | 0, s => .ok s
  | n + 1, s =>
    match hostTick policy s with
    | .ok t => runTicks policy n t
    | .error e => .error e

end Sys2Proof.Machine
end

