-- ==== Sys2Proof/Machine/Ports.lean ====
section
/-! DEFINITION. The core's ports as R39 lists them (the spec's own realisation, 92 D2): the combinational outputs and one
rising edge of `clk`. -/

namespace Sys2Proof.Machine

/-- The inputs sampled at a rising edge of `clk` (R39). -/
structure EdgeInputs where
  rst : Bool
  stepEn : Bool
  imemWe : Bool
  imemWaddr : Byte
  imemWdata : Byte
deriving DecidableEq, Repr

/-- Whether the core performs a step at the edge: `step_en` is 1 and `rst` is 0 (R39). -/
def EdgeInputs.performsStep (i : EdgeInputs) : Bool := i.stepEn && !i.rst

/-- `imem_addr0`, equal to `PC`. -/
def imemAddr0 (s : State) : Byte := s.pc

/-- `imem_rdata0`, the combinational read of `IM` at `imem_addr0` (R55). -/
def imemRdata0 (s : State) : Byte := s.fetchByte (imemAddr0 s)

/-- `imem_addr1`, equal to `(PC + 1) mod 256`. -/
def imemAddr1 (s : State) : Byte := s.pc + 1

/-- `imem_rdata1`, the combinational read of `IM` at `imem_addr1` (R55). -/
def imemRdata1 (s : State) : Byte := s.fetchByte (imemAddr1 s)

/-- `dmem_addr`, "equal to the operand byte of the current step"; the spec gives no value for a step whose instruction
has no operand byte, where this is `none`. -/
def dmemAddr (s : State) : Option Byte :=
  if lengthOfOpcode (imemRdata0 s) = 2 then some (imemRdata1 s) else none

/-- `dmem_rdata`, the combinational read of `DM` at `dmem_addr` (R56). -/
def dmemRdata (s : State) : Option Byte := (dmemAddr s).map s.memRead

/-- `dmem_we`, 1 "during a step that executes STA": at an edge that performs a step, with STA the instruction at `PC`. -/
def dmemWe (i : EdgeInputs) (s : State) : Bool :=
  i.performsStep && decide (Mnemonic.ofOpcode (imemRdata0 s) = some .sta)

/-- `dmem_wdata`, equal to `A`. -/
def dmemWdata (s : State) : Byte := s.a

/-- `out_o`, equal to `OUT`. -/
def outO (s : State) : Byte := s.out

/-- `halt_o`, 1 when `imem_rdata0 == 0x0F` (R85). -/
def haltO (s : State) : Bool := decide (imemRdata0 s = 0x0F)

/-- `taken(ins)` of R80: true for JMP, for JC when `C` is true and for JZ when `Z` is true. -/
def taken (i : Instr) (s : State) : Bool :=
  match i with
  | .nop => false
  | .lda _ => false
  | .add _ => false
  | .sub _ => false
  | .sta _ => false
  | .ldi _ => false
  | .jmp _ => true
  | .jc _ => s.c
  | .jz _ => s.z
  | .out => false
  | .hlt => false
  | .undefined _ => false

/-- `seqovf_o`, 1 when the step the next enabled edge performs would advance `PC` past 255 without a taken jump (R86). -/
def seqOvfO (s : State) : Bool :=
  passesEnd s.pc (lengthOfOpcode (imemRdata0 s)) && !taken s.fetchInstr s

/-- Why an edge has no next state. -/
inductive EdgeRefusal where
  /-- `step_en` and `imem_we` are both high: "The instruction memory is never written while a step is performed"
  (R55), and `load` keeps `step_en` low (R214; DESIGN CHOICE, log 9). -/
  | writeDuringStep
  /-- The core's step was refused; it never is (R88). -/
  | coreRefused (r : Refusal)
deriving DecidableEq, Repr

/-- One rising edge of `clk`: `rst` overrides `step_en` and `imem_we` (R214); `step_en` performs one step; `imem_we`
writes one byte of `IM` for `load`; with none of them the state stays (R201). -/
def clockEdge (i : EdgeInputs) (s : State) : Except EdgeRefusal State :=
  if i.rst then .ok s.coreReset
  else if i.stepEn then
    if i.imemWe then .error .writeDuringStep
    else
      match step s with
      | .next t => .ok t
      | .fault f => nomatch f
      | .refused r => .error (.coreRefused r)
  else if i.imemWe then .ok { s with im := Memory.write s.im i.imemWaddr.toNat i.imemWdata }
  else .ok s

/-- Edges one after another. -/
def clockEdges : List EdgeInputs → State → Except EdgeRefusal State
  | [], s => .ok s
  | i :: is, s =>
    match clockEdge i s with
    | .ok t => clockEdges is t
    | .error e => .error e

/-- The edge with `rst` high. -/
def resetEdge : EdgeInputs := ⟨true, false, false, 0, 0⟩

/-- The edges of `imem_we` that copy an image to addresses from `base` up, `step_en` low (R214). -/
def writeEdges : Nat → List Byte → List EdgeInputs
  | _, [] => []
  | base, v :: vs => ⟨false, false, true, BitVec.ofNat 8 base, v⟩ :: writeEdges (base + 1) vs

/-- `load` in the hardware realisation: "`rst` for one edge followed by `n` edges of `imem_we`" (R214). -/
def loadEdges (image : List Byte) : List EdgeInputs := resetEdge :: writeEdges 0 image

end Sys2Proof.Machine
end

