-- ==== Sys2Proof/Safety.lean ====
section
/-! DEFINITION. The terms in which claims are made: the architectural view, the invariants, the runs of a host. -/

namespace Sys2Proof.Machine

/-- The architectural view of a state: what R20 to R33 name, what the step returned (R85, R86), and the host's
scheduler. It leaves out the presentation-only state of R35 to R37 and the model's counter of free values. -/
structure Arch where
  a : Byte
  b : Byte
  pc : Byte
  ir : Byte
  z : Bool
  c : Bool
  out : Byte
  im : Memory
  dm : Memory
  signal : Signal
  seqOvf : Bool
  host : Scheduler
deriving DecidableEq, Repr

/-- The architectural view of a state. -/
def State.arch (s : State) : Arch :=
  { a := s.a, b := s.b, pc := s.pc, ir := s.ir, z := s.z, c := s.c, out := s.out, im := s.im, dm := s.dm,
    signal := s.signal, seqOvf := s.seqOvf, host := s.host }

/-- Both memories are in canonical form: 256 bytes each, every one of them a byte of the list or 0. -/
def State.MemInv (s : State) : Prop := Memory.wf s.im = true ∧ Memory.wf s.dm = true

/-- The host's bookkeeping agrees with itself (R215): the lifecycle is `running` exactly while `running` is true. -/
def State.HostInv (s : State) : Prop := s.host.running = true ↔ s.host.lifecycle = .running

/-- The states a host can bring the machine to from construction by its operations (R211, R220), whatever
`CLOCK_RATE_HZ_INIT` it is constructed with (R8). -/
inductive HostReachable (policy : PcEndPolicy) : State → Prop where
  | construction (clockRateHzInit : ClockRate) : HostReachable policy (State.construct clockRateHzInit)
  | operation {s t : State} (op : HostOp) :
      HostReachable policy s → hostApply policy op s = .ok t → HostReachable policy t

/-- The states between two host operations of the run that `run()` in `s` starts, while it is in progress (R217, R223):
any operation may come that leaves it in progress, a tick, a change of the clock speed (R219) or another `run()`. -/
inductive InRun (policy : PcEndPolicy) (s : State) : State → Prop where
  | start : InRun policy s s.hostRun
  | operation {t u : State} (op : HostOp) :
      InRun policy s t → hostApply policy op t = .ok u → u.host.running = true → InRun policy s u

/-- A program "runs to completion" when its run ends by the halt signal (R223): a tick of the run that `run()` in `s`
starts returns that signal, so the run is over, and the machine is then in `t`. -/
def RunsToCompletion (policy : PcEndPolicy) (s t : State) : Prop :=
  ∃ u, InRun policy s u ∧ hostApply policy .tick u = .ok t ∧ t.host.running = false ∧ t.signal = .halt

/-- The instruction `i` stands in `IM` at `PC`, its operand byte at `(PC + 1) mod 256` (R83). -/
def State.Holds (s : State) (i : Instr) : Prop :=
  match encode i with
  | [op] => s.fetchByte s.pc = op
  | [op, n] => s.fetchByte s.pc = op ∧ s.fetchByte (s.pc + 1) = n
  | _ => False

end Sys2Proof.Machine
end

