-- ==== Sys2Proof/Certificates/Slice0/Obligations.lean ====
section
/-! DEFINITION. The statements for the provers: what the spec's rules say of the instructions, the step and the host's
operations. The presentation-only `activeUnits` and `aluState` stand in no statement (R6, R36, 92 D8), and
`currentDataAddress` only where an instruction's own rule writes it. -/

open Sys2Proof Sys2Proof.Machine

/-! ### The instructions: encoding, result and frame

Each says what `exec` answers after the fetch of a step has written `IR` (R80, R81). `t.arch = { s.arch with … }` says that
every architectural element not named is unchanged: `A`, `B`, `IR`, the flags, `OUT`, both memories, and the host's scheduler. -/

/-- R170: NOP does nothing but the step's `PC <- (p + 1) mod 256`, and the step that runs it only the write of `IR`
besides. -/
def Obligations.NopOnlyAdvancesPc : Prop :=
  encode .nop = [0x00] ∧
  (∀ s : State, ∃ t, exec .nop s = .next t ∧
    t.arch = { s.arch with pc := s.pc + 1, signal := .cont, seqOvf := decide (255 < s.pc.toNat + 1) } ∧
    t.currentDataAddress = s.currentDataAddress) ∧
  ∀ s : State, Memory.read s.im s.pc.toNat = 0x00 → ∃ t, step s = .next t ∧
    t.arch = { s.arch with
      ir := 0x00, pc := s.pc + 1, signal := .cont, seqOvf := decide (255 < s.pc.toNat + 1) } ∧
    t.currentDataAddress = s.currentDataAddress

/-- R110: LDA loads `A` from `DM[n]` and writes `Z` with the new `A`; `C` and all else stay. -/
def Obligations.LdaLoadsAccumulator : Prop :=
  ∀ n : Byte, encode (.lda n) = [0x01, n] ∧
  ∀ s : State, ∃ t, exec (.lda n) s = .next t ∧
    t.arch = { s.arch with
      a := Memory.read s.dm n.toNat
      z := decide (Memory.read s.dm n.toNat = 0)
      pc := s.pc + 2, signal := .cont, seqOvf := decide (255 < s.pc.toNat + 2) } ∧
    t.currentDataAddress = some n

/-- R111: STA stores `A` to `DM[n]`; every other byte of `DM`, `A` and the flags stay. The address is the meaning's
own `effectiveAddress`, which the statement says is `n`. -/
def Obligations.StaStoresAccumulator : Prop :=
  ∀ n : Byte, encode (.sta n) = [0x04, n] ∧ effectiveAddress n = n ∧
  ∀ s : State, Memory.wf s.dm = true → ∃ t, exec (.sta n) s = .next t ∧
    t.arch = { s.arch with
      dm := t.dm
      pc := s.pc + 2, signal := .cont, seqOvf := decide (255 < s.pc.toNat + 2) } ∧
    (∀ x : Byte, Memory.read t.dm x.toNat = if x = effectiveAddress n then s.a else Memory.read s.dm x.toNat) ∧
    t.currentDataAddress = some n

/-- R112: LDI loads `A` with `n` and writes `Z`; `C`, `DM` and `currentDataAddress` stay. The assembler's `LDI 256` is
the bytes 0x05 0x00. -/
def Obligations.LdiLoadsImmediate : Prop :=
  (Assembler.assemble "LDI 256").toOption.map (fun r => r.image) = some [0x05, 0x00] ∧
  ∀ n : Byte, encode (.ldi n) = [0x05, n] ∧
  ∀ s : State, ∃ t, exec (.ldi n) s = .next t ∧
    t.arch = { s.arch with
      a := n
      z := decide (n = 0)
      pc := s.pc + 2, signal := .cont, seqOvf := decide (255 < s.pc.toNat + 2) } ∧
    t.currentDataAddress = s.currentDataAddress

/-- R130: ADD writes the masked sum, the carry and the zero flag; the incoming carry is not added. -/
def Obligations.AddWritesSumAndCarry : Prop :=
  ∀ n : Byte, encode (.add n) = [0x02, n] ∧
  ∀ s : State, ∃ t, exec (.add n) s = .next t ∧
    t.arch = { s.arch with
      a := BitVec.ofNat 8 ((s.a.toNat + (Memory.read s.dm n.toNat).toNat) % 256)
      c := decide (s.a.toNat + (Memory.read s.dm n.toNat).toNat > 255)
      z := decide ((s.a.toNat + (Memory.read s.dm n.toNat).toNat) % 256 = 0)
      pc := s.pc + 2, signal := .cont, seqOvf := decide (255 < s.pc.toNat + 2) } ∧
    t.currentDataAddress = some n

/-- R131: SUB writes the difference modulo 256, the borrow and the zero flag; the incoming carry is not subtracted. -/
def Obligations.SubWritesDifferenceAndBorrow : Prop :=
  ∀ n : Byte, encode (.sub n) = [0x03, n] ∧
  ∀ s : State, ∃ t, exec (.sub n) s = .next t ∧
    t.arch = { s.arch with
      a := BitVec.ofNat 8 ((s.a.toNat + 256 - (Memory.read s.dm n.toNat).toNat) % 256)
      c := decide (s.a.toNat < (Memory.read s.dm n.toNat).toNat)
      z := decide (s.a = Memory.read s.dm n.toNat)
      pc := s.pc + 2, signal := .cont, seqOvf := decide (255 < s.pc.toNat + 2) } ∧
    t.currentDataAddress = some n

/-- R150: JMP writes `PC` with `n` and alters no flag. -/
def Obligations.JmpWritesPc : Prop :=
  ∀ n : Byte, encode (.jmp n) = [0x06, n] ∧
  ∀ s : State, ∃ t, exec (.jmp n) s = .next t ∧
    t.arch = { s.arch with pc := n, signal := .cont, seqOvf := false } ∧
    t.currentDataAddress = s.currentDataAddress

/-- R151: JC writes `PC` with `n` iff `C` is set, else `PC` keeps `(p + 2) mod 256`; no flag is altered. -/
def Obligations.JcJumpsIffCarry : Prop :=
  ∀ n : Byte, encode (.jc n) = [0x07, n] ∧
  ∀ s : State, ∃ t, exec (.jc n) s = .next t ∧
    t.arch = { s.arch with
      pc := if s.c = true then n else s.pc + 2
      signal := .cont
      seqOvf := decide (s.c = false ∧ 255 < s.pc.toNat + 2) } ∧
    t.currentDataAddress = s.currentDataAddress

/-- R152: JZ writes `PC` with `n` iff `Z` is set, else `PC` keeps `(p + 2) mod 256`; no flag is altered. -/
def Obligations.JzJumpsIffZero : Prop :=
  ∀ n : Byte, encode (.jz n) = [0x08, n] ∧
  ∀ s : State, ∃ t, exec (.jz n) s = .next t ∧
    t.arch = { s.arch with
      pc := if s.z = true then n else s.pc + 2
      signal := .cont
      seqOvf := decide (s.z = false ∧ 255 < s.pc.toNat + 2) } ∧
    t.currentDataAddress = s.currentDataAddress

/-- R171: OUT copies `A` to `OUT`; the flags stay, even when `A` is 0. -/
def Obligations.OutCopiesAccumulator : Prop :=
  encode .out = [0x09] ∧
  ∀ s : State, ∃ t, exec .out s = .next t ∧
    t.arch = { s.arch with
      out := s.a
      pc := s.pc + 1, signal := .cont, seqOvf := decide (255 < s.pc.toNat + 1) } ∧
    t.currentDataAddress = s.currentDataAddress

/-- R172: HLT returns the halt signal and changes nothing but `PC`; the core can step on, with no halted state. -/
def Obligations.HltSignalsHaltOnly : Prop :=
  encode .hlt = [0x0F] ∧
  ∀ s : State, ∃ t, exec .hlt s = .next t ∧
    t.arch = { s.arch with pc := s.pc + 1, signal := .halt, seqOvf := decide (255 < s.pc.toNat + 1) } ∧
    t.currentDataAddress = s.currentDataAddress ∧
    step t = exec (decodeBytes (Memory.read s.im (s.pc + 1).toNat) (Memory.read s.im (s.pc + 2).toNat))
      { t with ir := Memory.read s.im (s.pc + 1).toNat }

/-- R173: an undefined byte, whatever byte follows it, writes `IR` and advances `PC` by 1, and that is all. -/
def Obligations.UndefinedByteIsOneByteNoOp : Prop :=
  ∀ op n : Byte, (10 ≤ op.toNat ∧ op.toNat ≤ 14) ∨ 16 ≤ op.toNat →
    decodeBytes op n = .undefined op ∧ encode (.undefined op) = [op] ∧
    ∀ s : State, ∃ t, exec (.undefined op) s = .next t ∧
      t.arch = { s.arch with
        ir := op, pc := s.pc + 1, signal := .cont, seqOvf := decide (255 < s.pc.toNat + 1) } ∧
      t.currentDataAddress = s.currentDataAddress

/-! ### The encoding -/

/-- Words written out bit by bit from R73's table, with an operand byte where the format has one. -/
def Obligations.WrittenWordsDecode : Prop :=
  decode [0b00000000#8] = .ok (.nop, []) ∧
  decode [0b00000001#8, 0b00010100#8] = .ok (.lda 20, []) ∧
  decode [0b00000010#8, 0b00010101#8] = .ok (.add 21, []) ∧
  decode [0b00000101#8, 0b11111111#8] = .ok (.ldi 255, []) ∧
  decode [0b00000111#8, 0b00010101#8] = .ok (.jc 21, []) ∧
  decode [0b00001001#8] = .ok (.out, []) ∧
  decode [0b00001111#8] = .ok (.hlt, []) ∧
  decode [0b00011111#8] = .ok (.undefined 0x1F, [])

/-- For every well-formed instruction, with every operand, decoding its bytes gives it back and leaves what follows. -/
def Obligations.DecodeAfterEncodeIsIdentity : Prop :=
  ∀ (i : Instr) (rest : List Byte), i.wellFormed = true → decode (encode i ++ rest) = .ok (i, rest)

/-- The other direction: whatever bytes decode to an instruction are its encoding, and the instruction is well-formed. -/
def Obligations.EncodeAfterDecodeIsIdentity : Prop :=
  ∀ (bytes rest : List Byte) (i : Instr),
    decode bytes = .ok (i, rest) → i.wellFormed = true ∧ encode i ++ rest = bytes

/-- R74: the first byte alone decides the length: 2 for opcodes 1 to 8, 1 for 0, 9, 15 and every undefined byte. -/
def Obligations.FirstByteDecidesLength : Prop :=
  ∀ (op : Byte) (bytes rest : List Byte) (i : Instr), decode (op :: bytes) = .ok (i, rest) →
    (op :: bytes).length = rest.length + (if 1 ≤ op.toNat ∧ op.toNat ≤ 8 then 2 else 1)

/-- R75: a byte is an undefined opcode exactly where it is 10 to 14 or 16 to 255, 245 values in all, and a step on
one advances `PC` by 1 and changes nothing else but `IR`. -/
def Obligations.UndefinedOpcodesAreTheOtherBytes : Prop :=
  (∀ op n : Byte, decodeBytes op n = .undefined op ↔
    (10 ≤ op.toNat ∧ op.toNat ≤ 14) ∨ (16 ≤ op.toNat ∧ op.toNat ≤ 255)) ∧
  ((List.range 256).filter fun k => (Mnemonic.ofOpcode (BitVec.ofNat 8 k)).isNone).length = 245 ∧
  ∀ s : State, Mnemonic.ofOpcode (Memory.read s.im s.pc.toNat) = none → ∃ t, step s = .next t ∧
    t.arch = { s.arch with
      ir := Memory.read s.im s.pc.toNat
      pc := s.pc + 1, signal := .cont, seqOvf := decide (s.pc = 255) }

/-! ### The step -/

/-- R80: where the bytes at `PC` and `(PC + 1) mod 256` decode to `i`, the step is `exec i` on the state in which `IR`
holds the opcode byte, and nothing else is added around it. -/
def Obligations.StepRunsTheDecodedInstruction : Prop :=
  ∀ (s : State) (i : Instr) (rest : List Byte),
    decode [Memory.read s.im s.pc.toNat, Memory.read s.im (s.pc + 1).toNat] = .ok (i, rest) →
    step s = exec i { s with ir := Memory.read s.im s.pc.toNat }

/-- A well-formed instruction whose encoding stands in `IM` at `PC` is the one the step runs. -/
def Obligations.StepRunsTheStoredInstruction : Prop :=
  ∀ (s : State) (i : Instr), i.wellFormed = true → s.Holds i →
    ∃ op, (encode i).head? = some op ∧ step s = exec i { s with ir := op }

/-- R88: the step is total: for every state it gives a next state, never a fault or a refusal. -/
def Obligations.StepIsTotal : Prop :=
  ∀ s : State, ∃ t, step s = .next t

/-- R81: every step leaves in `IR` the opcode byte it fetched from `IM[PC]`. -/
def Obligations.StepLatchesTheFetchedOpcode : Prop :=
  ∀ s t : State, step s = .next t → t.ir = Memory.read s.im s.pc.toNat

/-- `PC` after a step, in R73's opcode numbers: the operand byte after a taken jump, else the next opcode's address
modulo 256 (R82 to R84, R150 to R152). -/
def Obligations.StepSetsPc : Prop :=
  ∀ s t : State, step s = .next t →
    let op := (Memory.read s.im s.pc.toNat).toNat
    t.pc =
      if op = 6 ∨ (op = 7 ∧ s.c = true) ∨ (op = 8 ∧ s.z = true) then Memory.read s.im (s.pc + 1).toNat
      else if 1 ≤ op ∧ op ≤ 8 then BitVec.ofNat 8 ((s.pc.toNat + 2) % 256)
      else BitVec.ofNat 8 ((s.pc.toNat + 1) % 256)

/-- R85: a step returns the halt signal exactly where it executes HLT, which `halt_o` shows before the step; the
signals the last step returned are no core state: no step depends on them. -/
def Obligations.HaltSignalExactlyAtHlt : Prop :=
  ∀ s t : State, step s = .next t →
    (t.signal = .halt ↔ Memory.read s.im s.pc.toNat = 0x0F) ∧
    (t.signal = .cont ↔ Memory.read s.im s.pc.toNat ≠ 0x0F) ∧
    (haltO s = true ↔ t.signal = .halt) ∧
    ∀ (signal : Signal) (seqOvf : Bool), step { s with signal := signal, seqOvf := seqOvf } = .next t

/-- R86: a step reports `seqovf` exactly where its sequential advance passes address 255 and no jump overwrites `PC`,
in R73's opcode numbers; the port `seqovf_o` shows it before the step (R39), and no step reads it. -/
def Obligations.SeqOvfExactlyAtSequentialWrap : Prop :=
  ∀ s t : State, step s = .next t →
    let op := (Memory.read s.im s.pc.toNat).toNat
    (t.seqOvf = true ↔
      255 < s.pc.toNat + (if 1 ≤ op ∧ op ≤ 8 then 2 else 1) ∧
      ¬(op = 6 ∨ (op = 7 ∧ s.c = true) ∨ (op = 8 ∧ s.z = true))) ∧
    seqOvfO s = t.seqOvf ∧
    ∀ b : Bool, step { s with seqOvf := b } = .next t

/-- R89: the step's effect does not depend on the host's scheduler, and the step leaves the scheduler as it was. -/
def Obligations.StepIgnoresTheScheduler : Prop :=
  ∀ (s t : State) (h : Scheduler), step s = .next t →
    t.host = s.host ∧ step { s with host := h } = .next { t with host := h }

/-- No architectural result of a step depends on `activeUnits`, `aluState` or `currentDataAddress` (R6), nor on the
model's own counter of free values, which is a choice of the model's (log 3). -/
def Obligations.PresentationStateHasNoInfluence : Prop :=
  ∀ s s' t t' : State, s.arch = s'.arch → step s = .next t → step s' = .next t' → t.arch = t'.arch

/-! ### Whole-machine rules: who writes what -/

/-- R29: only ADD and SUB write `C`, and only LDA, ADD, SUB and LDI write `Z`; LDA and LDI leave `C`, and the others
leave both. -/
def Obligations.FlagsChangeOnlyByTheirWriters : Prop :=
  ∀ (i : Instr) (s t : State), exec i s = .next t →
    (i.mnemonic? ≠ some .add → i.mnemonic? ≠ some .sub → t.c = s.c) ∧
    (i.mnemonic? ≠ some .lda → i.mnemonic? ≠ some .add → i.mnemonic? ≠ some .sub → i.mnemonic? ≠ some .ldi →
      t.z = s.z)

/-- R27: each of LDA, ADD, SUB and LDI leaves `Z` true exactly where the new `A` is 0. -/
def Obligations.ZeroFlagTellsTheNewAccumulator : Prop :=
  ∀ (i : Instr) (s t : State),
    i.mnemonic? ∈ [some Mnemonic.lda, some .add, some .sub, some .ldi] → exec i s = .next t →
    (t.z = true ↔ t.a = 0)

/-- In R73's opcode numbers: a step changes `A` only for LDA, ADD, SUB and LDI (R20), never `B` (R21), `OUT` only
for OUT (R31), and a byte of `DM` only for STA and at the operand's address (R33, R57). -/
def Obligations.RegistersChangeOnlyByTheirWriters : Prop :=
  ∀ s t : State, Memory.wf s.dm = true → step s = .next t →
    let op := (Memory.read s.im s.pc.toNat).toNat
    (t.a ≠ s.a → op = 1 ∨ op = 2 ∨ op = 3 ∨ op = 5) ∧
    t.b = s.b ∧
    (t.out ≠ s.out → op = 9 ∧ t.out = s.a) ∧
    (∀ x : Byte, Memory.read t.dm x.toNat ≠ Memory.read s.dm x.toNat →
      op = 4 ∧ x = Memory.read s.im (s.pc + 1).toNat ∧ Memory.read t.dm x.toNat = s.a)

/-- R63: no step changes a byte of `IM`, so a store is never seen by instruction fetch; of the host's operations only
reset and load change `IM`, and both leave `PC` 0. -/
def Obligations.StoresAreNeverFetched : Prop :=
  (∀ s t : State, step s = .next t → t.im = s.im) ∧
  ∀ (policy : PcEndPolicy) (op : HostOp) (s t : State), hostApply policy op s = .ok t → t.im ≠ s.im →
    (op = .reset ∨ (∃ image sourceMap, op = .load image sourceMap) ∨ ∃ text, op = .assembleLoad text) ∧ t.pc = 0

/-! ### Laws of the ALU and of successive instructions -/

/-- R134: the laws of ADD and SUB over all bytes, and what the flags then tell. -/
def Obligations.ArithmeticLaws : Prop :=
  ∀ (n : Byte) (s t u : State), exec (.add n) s = .next t → exec (.sub n) s = .next u →
    let a := s.a.toNat
    let m := (Memory.read s.dm n.toNat).toNat
    t.a.toNat = (a + m) % 256 ∧ (t.c = true ↔ 256 ≤ a + m) ∧ (t.z = true ↔ t.a = 0) ∧
    (u.a.toNat : Int) = ((a : Int) - (m : Int)) % 256 ∧ (u.c = true ↔ a < m) ∧ (u.z = true ↔ u.a = 0) ∧
    ((t.z = true ∧ t.c = false) ↔ (a = 0 ∧ m = 0)) ∧
    (u.z = true ↔ a = m) ∧ (u.z = true → u.c = false)

/-- R226: LDA, ADD or SUB of an address right after STA of it reads the stored value. -/
def Obligations.LoadAfterStoreSeesTheStoredByte : Prop :=
  ∀ (n : Byte) (s t u : State), Memory.wf s.dm = true → s.Holds (.sta n) → step s = .next t → step t = .next u →
    (t.Holds (.lda n) → u.a = s.a) ∧
    (t.Holds (.add n) → u.a.toNat = (s.a.toNat + s.a.toNat) % 256) ∧
    (t.Holds (.sub n) → u.a = 0 ∧ u.z = true ∧ u.c = false)

/-- R226: JC or JZ right after ADD, SUB, LDA or LDI reads the flags that instruction wrote: JC after an ADD whose sum
passes 255, JC after a SUB that borrows, and JZ after any of the four whose result is 0. -/
def Obligations.JumpAfterFlagWriterReadsItsFlags : Prop :=
  ∀ (n k : Byte) (s t u : State), step s = .next t → step t = .next u →
    (s.Holds (.add n) → t.Holds (.jc k) →
      u.pc = if 255 < s.a.toNat + (Memory.read s.dm n.toNat).toNat then k else s.pc + 4) ∧
    (s.Holds (.sub n) → t.Holds (.jc k) →
      u.pc = if s.a.toNat < (Memory.read s.dm n.toNat).toNat then k else s.pc + 4) ∧
    (s.Holds (.add n) ∨ s.Holds (.sub n) ∨ s.Holds (.lda n) ∨ s.Holds (.ldi n) → t.Holds (.jz k) →
      u.pc = if t.a = 0 then k else s.pc + 4)

/-! ### Reset and load -/

/-- Reset sets every element to its reset value from any state and leaves the source map (R210); it leaves the clock
rate, which is the scheduler's (R38), stops a run first (R214), and the lifecycle is `idle` after it (R215).
`activeUnits` is left out (92 D8) and `aluState` is unspecified. -/
def Obligations.ResetClearsEveryElement : Prop :=
  ∀ (policy : PcEndPolicy) (s : State), ∃ t, hostApply policy .reset s = .ok t ∧
    t.a = 0 ∧ t.b = 0 ∧ t.pc = 0 ∧ t.ir = 0 ∧ t.out = 0 ∧ t.z = false ∧ t.c = false ∧
    (∀ x : Byte, Memory.read t.im x.toNat = 0 ∧ Memory.read t.dm x.toNat = 0) ∧
    t.currentDataAddress = none ∧
    t.host.sourceMap = s.host.sourceMap ∧ t.host.clockRateHz = s.host.clockRateHz ∧
    t.host.running = false ∧ t.host.lifecycle = .idle

/-- The machine constructed with any `CLOCK_RATE_HZ_INIT` is in the reset state, with `running` false and that clock
rate (R8, R38, R211) and the lifecycle `idle` (R215); `core` starts at one such construction (log 6). -/
def Obligations.ConstructionIsTheResetState : Prop :=
  core.reset = State.construct Config.clockRateHzInit ∧
  ∀ rate : ClockRate,
    let s := State.construct rate
    s.a = 0 ∧ s.b = 0 ∧ s.pc = 0 ∧ s.ir = 0 ∧ s.out = 0 ∧ s.z = false ∧ s.c = false ∧
    (∀ x : Byte, Memory.read s.im x.toNat = 0 ∧ Memory.read s.dm x.toNat = 0) ∧
    s.currentDataAddress = none ∧
    s.host.running = false ∧ s.host.clockRateHz = rate ∧ s.host.lifecycle = .idle

/-- R212: `load` of an image of up to 256 bytes leaves what `reset` leaves in everything but `IM` and the host's
scheduler, puts byte `i` of the image in `IM[i]`, leaves the rest of `IM` and all of `DM` 0, and replaces the source map. -/
def Obligations.LoadPlacesTheImageAfterReset : Prop :=
  ∀ (policy : PcEndPolicy) (image : List Byte) (sourceMap : List (Nat × Nat)) (s : State), image.length ≤ 256 →
    ∃ r t, hostApply policy .reset s = .ok r ∧ hostApply policy (.load image sourceMap) s = .ok t ∧
      { t with im := r.im, host := r.host } = r ∧
      t.a = 0 ∧ t.b = 0 ∧ t.pc = 0 ∧ t.ir = 0 ∧ t.out = 0 ∧ t.z = false ∧ t.c = false ∧
      (∀ x : Byte, Memory.read t.im x.toNat = (image[x.toNat]?).getD 0) ∧
      (∀ x : Byte, Memory.read t.dm x.toNat = 0) ∧
      t.currentDataAddress = none ∧
      t.host = { s.host with running := false, lifecycle := .loaded, sourceMap := sourceMap }

/-- R213: `load` of an image longer than 256 bytes is refused, so there is no next state. -/
def Obligations.LoadRefusesAnImageTooLong : Prop :=
  ∀ (policy : PcEndPolicy) (image : List Byte) (sourceMap : List (Nat × Nat)) (s : State), 256 < image.length →
    hostApply policy (.load image sourceMap) s = .error (.imageTooLong image.length)

/-! ### The host's run loop -/

/-- `step()` performs exactly one step where no run is in progress (R216). Choices of the model's: it may be called in
`idle` too (log 5), it leaves the lifecycle as it is, even after HLT (log 12), and the call that R216 forbids, during a
run, is refused by name (log 14). -/
def Obligations.HostStepOutsideARunOnly : Prop :=
  ∀ (policy : PcEndPolicy) (s : State),
    (s.host.running = false → ∃ t, step s = .next t ∧ hostApply policy .step s = .ok t) ∧
    (s.host.running = true → hostApply policy .step s = .error .stepDuringRun)

/-- One tick of a run (R217, R222): the core is as one step leaves it, and the run is over exactly where that step
returned the halt signal, or reported `seqovf` under `StopAtEnd`. -/
def Obligations.TickIsOneStepAndMayEndTheRun : Prop :=
  ∀ (policy : PcEndPolicy) (s : State), s.host.running = true → ∃ t u, step s = .next t ∧
    hostApply policy .tick s = .ok u ∧ { u with host := t.host } = t ∧
    (u.host.running = false ↔ t.signal = .halt ∨ (policy = .stopAtEnd ∧ t.seqOvf = true)) ∧
    (u.host.running = false → u.host.lifecycle = .haltedOrStopped)

/-- R222: the core's state after a tick is the same under both values of `PC_END_POLICY`. -/
def Obligations.PolicyNeverChangesTheCore : Prop :=
  ∀ s t u : State, hostApply .wrap .tick s = .ok t → hostApply .stopAtEnd .tick s = .ok u →
    { t with host := u.host } = u

/-- R218: `stop()` sets `running` to false, leaves the machine's state as the last completed step left it, and is
idempotent. -/
def Obligations.StopIsIdempotentAndLeavesTheCore : Prop :=
  ∀ (policy : PcEndPolicy) (s : State), ∃ t, hostApply policy .stop s = .ok t ∧ t.host.running = false ∧
    { t with host := s.host } = s ∧ hostApply policy .stop t = .ok t ∧
    hostApply policy .tick t = .error .noRunInProgress

/-- `setClockSpeed` sets the rate and nothing else (R219), and the step after it is the same but for the rate. -/
def Obligations.ClockSpeedNeverChangesAStep : Prop :=
  ∀ (policy : PcEndPolicy) (hz : ClockRate) (s t : State), step s = .next t →
    ∃ s', hostApply policy (.setClockSpeed hz) s = .ok s' ∧
      s' = { s with host := { s.host with clockRateHz := hz } } ∧
      step s' = .next { t with host := { t.host with clockRateHz := hz } }

/-- R217, R223: where a run ends by the halt signal, whatever the host does during it, the byte before `PC` is the HLT that ended it, in the
instruction memory the run started with. -/
def Obligations.CompletedRunStopsJustPastAnHlt : Prop :=
  ∀ (policy : PcEndPolicy) (s t : State), RunsToCompletion policy s t →
    t.im = s.im ∧ Memory.read t.im (t.pc - 1).toNat = 0x0F ∧ t.ir = 0x0F ∧ t.host.lifecycle = .haltedOrStopped

/-! ### Invariants -/

/-- Both memories are in canonical form at reset. -/
def Obligations.MemoriesAreCanonicalAtReset : Prop := State.reset.MemInv

/-- Every step, from every state in which both memories are in canonical form, keeps that form. -/
def Obligations.StepKeepsMemoriesCanonical : Prop :=
  ∀ s t : State, s.MemInv → step s = .next t → t.MemInv

/-- Every operation of the host keeps both memories in canonical form and the lifecycle in agreement with `running`. -/
def Obligations.HostOperationsKeepTheInvariants : Prop :=
  ∀ (policy : PcEndPolicy) (op : HostOp) (s t : State), s.MemInv → s.HostInv → hostApply policy op s = .ok t →
    t.MemInv ∧ t.HostInv

/-- R21: no instruction reads or writes `B`, whatever it holds, and `B` is 0 at every point after construction, a reset
or a load: in every state a host can bring the machine to. -/
def Obligations.RegisterBIsUnusedAndZero : Prop :=
  (∀ (s t : State) (v : Byte), step s = .next t → t.b = s.b ∧ step { s with b := v } = .next { t with b := v }) ∧
  ∀ (policy : PcEndPolicy) (s : State), HostReachable policy s → s.b = 0

/-! ### The ports -/

/-- The data memory port's outputs tell what an edge does (R39): `dmem_we` is 1 exactly where the edge performs a step
(`step_en` 1, `rst` 0) that executes STA; the write then lands at `dmem_addr`, with `dmem_wdata`; where it is 0, no edge
but one with `rst` changes `DM`. -/
def Obligations.DataPortTellsTheStore : Prop :=
  ∀ (i : EdgeInputs) (s t : State), Memory.wf s.dm = true → clockEdge i s = .ok t →
    (dmemWe i s = true ↔ i.stepEn = true ∧ i.rst = false ∧ Memory.read s.im s.pc.toNat = 0x04) ∧
    (dmemWe i s = true → step s = .next t ∧ ∃ n, dmemAddr s = some n ∧ dmemWdata s = s.a ∧
      ∀ x : Byte, Memory.read t.dm x.toNat = if x = n then dmemWdata s else Memory.read s.dm x.toNat) ∧
    (dmemWe i s = false → i.rst = false → t.dm = s.dm)

/-- R214: `rst` for one edge and then one edge of `imem_we` for each byte of an image that fits is the core's load;
`rst` overrides `step_en` and `imem_we`. -/
def Obligations.LoadThroughThePorts : Prop :=
  (∀ (image : List Byte) (s : State), image.length ≤ 256 →
    clockEdges (loadEdges image) s = .ok (s.coreLoad image)) ∧
  ∀ (i : EdgeInputs) (s : State), i.rst = true → clockEdge i s = .ok s.coreReset

/-! ### The assembler -/

/-- R101: an assembly that succeeds yields an image of at most 256 bytes. -/
def Obligations.AssembledImageFits : Prop :=
  ∀ (text : String) (r : Assembler.Assembled), Assembler.assemble text = .ok r → r.image.length ≤ 256

/-- An assembled image is the bytes of well-formed instructions, none of them an undefined byte (R97, R103). -/
def Obligations.AssembledImageIsInstructions : Prop :=
  ∀ (text : String) (r : Assembler.Assembled), Assembler.assemble text = .ok r →
    ∃ is : List Instr, (∀ i ∈ is, i.wellFormed = true ∧ i.mnemonic?.isSome = true) ∧ r.image = is.flatMap encode

/-- R100: a text with an error yields a list of errors that is not empty, and the host loads nothing. -/
def Obligations.FailedAssemblyLoadsNothing : Prop :=
  ∀ (policy : PcEndPolicy) (text : String) (errors : List Assembler.AsmError) (s : State),
    Assembler.assemble text = .error errors →
    errors ≠ [] ∧ hostApply policy (.assembleLoad text) s = .error (.assemblyFailed errors)

/-- A token is a mnemonic exactly where its letters, in capitals, are one of the 11 names (R93). That only the ASCII
letters have capitals is the model's reading (log 8). -/
def Obligations.MnemonicsMatchWithoutCase : Prop :=
  (Mnemonic.all.map Mnemonic.name =
    ["NOP", "LDA", "ADD", "SUB", "STA", "LDI", "JMP", "JC", "JZ", "OUT", "HLT"]) ∧
  ∀ (t : Assembler.Token) (m : Mnemonic),
    Assembler.mnemonicOfToken t = some m ↔ t.map Char.toUpper = m.name.toList

/-- R104: looking up an instruction's opcode byte recovers its mnemonic, and an undefined byte has none. -/
def Obligations.DisassemblyRecoversTheMnemonic : Prop :=
  ∀ i : Instr, i.wellFormed = true → ∃ op rest, encode i = op :: rest ∧
    Assembler.disassembleOpcode op = i.mnemonic?.map Mnemonic.name

/-- R99: the operand of a line's instruction that is neither a decimal literal nor a bound label is reported, with its
line and its token, whatever else is wrong on the line or in the text; so the text yields no image. -/
def Obligations.UnresolvedOperandIsReported : Prop :=
  ∀ (text : String) (k : Nat) (line name operand : Assembler.Token) (rest : List Assembler.Token) (m : Mnemonic),
    (k, line) ∈ Assembler.numberFrom 0 (Assembler.splitLines text.toList) →
    Assembler.instructionTokens line = name :: operand :: rest →
    Assembler.mnemonicOfToken name = some m → m.operandCount = 1 →
    Assembler.isDecimal operand = false → (Assembler.pass1 text.toList).labels.lookup operand = none →
    ∃ errors, Assembler.assemble text = .error errors ∧
      (⟨k, .unresolvedOperand operand⟩ : Assembler.AsmError) ∈ errors

/-- The ends of a run (R223): an operation during a run ends it exactly where it is a tick whose step returns the halt
signal, or under `StopAtEnd` one whose step reports `seqovf`, or `stop()`, or an operation that stops first, `reset`
or a load (R214). -/
def Obligations.RunEndsExactlyAtItsThreeEnds : Prop :=
  ∀ (policy : PcEndPolicy) (op : HostOp) (s t : State), s.host.running = true → hostApply policy op s = .ok t →
    (t.host.running = false ↔
      (op = .tick ∧ (t.signal = .halt ∨ (policy = .stopAtEnd ∧ t.seqOvf = true))) ∨
      op = .stop ∨ op = .reset ∨ (∃ image sourceMap, op = .load image sourceMap) ∨ ∃ text, op = .assembleLoad text)
end

