-- ==== Sys2Proof/Laws/Alu.lean ====
section
/-! SUPPORT. One lemma for each of the ALU's functions: what it computes, in terms of bytes. -/

namespace Sys2Proof.Machine

theorem addResult_eq (a m : Byte) : addResult a m = a + m := by
  simp [addResult, addSum, BitVec.ofNat_add]

theorem addResult_toNat (a m : Byte) : (addResult a m).toNat = (a.toNat + m.toNat) % 256 := by
  simp [addResult, addSum]

theorem addCarry_iff (a m : Byte) : addCarry a m = true ↔ 256 ≤ a.toNat + m.toNat := by
  rw [addCarry, decide_eq_true_eq, addSum]
  omega

theorem subResult_eq (a m : Byte) : subResult a m = a - m := by
  apply BitVec.eq_of_toNat_eq
  have ha := a.isLt
  have hm := m.isLt
  simp only [subResult, subDiff, BitVec.toNat_ofInt, BitVec.toNat_sub]
  omega

theorem subResult_toNat (a m : Byte) : (subResult a m).toNat = (a.toNat + 256 - m.toNat) % 256 := by
  have ha := a.isLt
  have hm := m.isLt
  simp only [subResult, subDiff, BitVec.toNat_ofInt]
  omega

theorem subResult_eq_zero_iff (a m : Byte) : subResult a m = 0 ↔ a = m := by
  rw [subResult_eq]
  bv_omega

theorem subBorrow_iff (a m : Byte) : subBorrow a m = true ↔ a.toNat < m.toNat := by
  rw [subBorrow, decide_eq_true_eq, subDiff]
  omega

end Sys2Proof.Machine
end

