-- ==== Sys2Proof/Laws/Assembler.lean ====
section
/-! SUPPORT. What a line does to pass 1, an induction over the lines, and what a successful assembly says. -/

namespace Sys2Proof.Assembler

/-- The tokens a line's instruction gives, and what pass 1 then does: nothing without a token, one error for a token
that is no mnemonic or an instruction without its operand, else one instruction and an error for each extra token. -/
theorem Pass1.addInstruction_cases (line : Nat) (ts : List Token) (p : Pass1) :
    (ts = [] ∧ p.addInstruction line ts = p) ∨
    (∃ t rest, ts = t :: rest ∧ mnemonicOfToken t = none ∧
      p.addInstruction line ts = { p with errors := p.errors ++ [⟨line, .unknownMnemonic t⟩] }) ∨
    (∃ t rest m r, ts = t :: rest ∧ mnemonicOfToken t = some m ∧ operandTokens m rest = .error r ∧
      p.addInstruction line ts = { p.advance line m with errors := p.errors ++ [⟨line, r⟩] }) ∨
    (∃ t rest m operand, ts = t :: rest ∧ mnemonicOfToken t = some m ∧ operandTokens m rest = .ok operand ∧
      p.addInstruction line ts =
        { p.advance line m with
          items := p.items ++ [⟨line, p.address, m, operand⟩]
          sourceMap := addMapEntry p.address line p.sourceMap
          errors := p.errors ++ (extraTokens m rest).map fun t => ⟨line, .extraToken t⟩ }) := by
  match ts with
  | [] => exact .inl ⟨rfl, rfl⟩
  | t :: rest =>
    refine .inr ?_
    unfold Pass1.addInstruction
    cases hm : mnemonicOfToken t with
    | none => exact .inl ⟨t, rest, rfl, hm, by simp [hm]⟩
    | some m =>
      cases ho : operandTokens m rest with
      | error r => exact .inr (.inl ⟨t, rest, m, r, rfl, hm, ho, by simp [hm, ho]⟩)
      | ok operand => exact .inr (.inr ⟨t, rest, m, operand, rfl, hm, ho, by simp [hm, ho]⟩)

/-- A label definition adds at most one error, and changes neither the address nor the instructions. -/
theorem Pass1.bindLabel_cases (line : Nat) (name : Token) (p : Pass1) :
    (∃ r, p.bindLabel line name = { p with errors := p.errors ++ [⟨line, r⟩] }) ∨
    (isIdentifier name = true ∧ p.labels.lookup name = none ∧
      p.bindLabel line name =
        { p with labels := p.labels ++ [(name, p.address)], sourceMap := p.sourceMap ++ [(p.address, line)] }) := by
  unfold Pass1.bindLabel
  split
  · exact .inl ⟨_, rfl⟩
  · split
    · exact .inl ⟨_, rfl⟩
    · next h1 h2 => exact .inr ⟨by simpa using h1, Option.not_isSome_iff_eq_none.1 h2, rfl⟩

/-- A line binds its label, if it has one, and then adds its instruction. -/
theorem Pass1.addLine_eq (p : Pass1) (k : Nat) (line : Token) :
    p.addLine (k, line) =
      ((lineLabel line).elim p fun name => p.bindLabel k name).addInstruction k (instructionTokens line) := by
  unfold Pass1.addLine
  cases lineLabel line <;> rfl

/-- What holds at the start of pass 1 and is kept by every line of the text holds at its end. -/
theorem pass1_induction {motive : Pass1 → Prop} (text : List Char) (start : motive Pass1.start)
    (line : ∀ p numbered, numbered ∈ numberFrom 0 (splitLines text) → motive p → motive (p.addLine numbered)) :
    motive (pass1 text) :=
  List.foldlRecOn _ _ start fun p hp numbered hn => line p numbered hn hp

/-- What every label definition and every instruction keeps holds at the end of pass 1 if it holds at its start. -/
theorem pass1_induction_parts {motive : Pass1 → Prop} (text : List Char) (start : motive Pass1.start)
    (label : ∀ p k name, motive p → motive (p.bindLabel k name))
    (instruction : ∀ p k ts, motive p → motive (p.addInstruction k ts)) : motive (pass1 text) := by
  refine pass1_induction text start fun p numbered _ hp => ?_
  rw [Pass1.addLine_eq]
  cases lineLabel numbered.2 with
  | none => exact instruction _ _ _ hp
  | some name => exact instruction _ _ _ (label _ _ _ hp)

/-- Pass 1 has noted a line past the end exactly where the running address passed 256. -/
theorem pass1_overflowLine (text : List Char) :
    (pass1 text).overflowLine = none ↔ (pass1 text).address ≤ 256 := by
  have advance : ∀ (p : Pass1) (k : Nat) (m : Mnemonic), (p.overflowLine = none ↔ p.address ≤ 256) →
      ((p.advance k m).overflowLine = none ↔ (p.advance k m).address ≤ 256) := by
    intro p k m hp
    unfold Pass1.advance
    cases ho : p.overflowLine with
    | none => simp
    | some line =>
      rw [ho] at hp
      simp only [reduceCtorEq, false_iff] at hp
      simp
      omega
  refine pass1_induction_parts (motive := fun p => p.overflowLine = none ↔ p.address ≤ 256) text (by decide) ?_ ?_
  · intro p k name hp
    obtain ⟨r, h⟩ | ⟨-, -, h⟩ := p.bindLabel_cases k name <;> rw [h] <;> exact hp
  · intro p k ts hp
    obtain ⟨-, h⟩ | ⟨t, rest, -, -, h⟩ | ⟨t, rest, m, r, -, -, -, h⟩ | ⟨t, rest, m, operand, -, -, -, h⟩ :=
      p.addInstruction_cases k ts <;> rw [h]
    · exact hp
    · exact hp
    · exact advance p k m hp
    · exact advance p k m hp

/-- The too-long error stands in the list exactly where the instructions have more than 256 bytes (R101). -/
theorem lengthErrors_pass1_eq_nil (text : List Char) :
    lengthErrors (pass1 text) = [] ↔ (pass1 text).address ≤ 256 := by
  rw [← pass1_overflowLine]
  unfold lengthErrors
  cases (pass1 text).overflowLine <;> simp

/-- A text assembles exactly where neither pass has an error and its instructions fit (R100, R101). -/
theorem assemble_ok_iff {text : String} {r : Assembled} :
    assemble text = .ok r ↔
      (pass1 text.toList).errors = [] ∧
      resolveErrors (pass1 text.toList).labels (pass1 text.toList).items = [] ∧
      (pass1 text.toList).address ≤ 256 ∧
      r = ⟨encodeAll (resolvedInstrs (pass1 text.toList).labels (pass1 text.toList).items),
        (pass1 text.toList).sourceMap⟩ := by
  rw [← lengthErrors_pass1_eq_nil]
  unfold assemble assembleChars
  simp only
  split
  · next h =>
    simp only [List.append_eq_nil_iff] at h
    simp [h, eq_comm]
  · next h =>
    simp only [List.append_eq_nil_iff] at h
    simp only [reduceCtorEq, false_iff]
    tauto

/-- The errors of a text that does not assemble are those of pass 1, of pass 2 and of the length, in this order (R100). -/
theorem assemble_error {text : String} {errors : List AsmError} (h : assemble text = .error errors) :
    errors = (pass1 text.toList).errors ++ resolveErrors (pass1 text.toList).labels (pass1 text.toList).items ++
      lengthErrors (pass1 text.toList) := by
  unfold assemble assembleChars at h
  simp only at h
  split at h
  · cases h
  · exact (Except.error.inj h).symm

/-- Pass 2 reports an error for exactly the instructions whose operand does not resolve (R99). -/
theorem mem_resolveErrors {labels : List (Token × Nat)} {items : List Item} {e : AsmError} :
    e ∈ resolveErrors labels items ↔ ∃ it ∈ items, resolveItem labels it = .error e := by
  induction items with
  | nil => simp [resolveErrors]
  | cons it its ih =>
    unfold resolveErrors
    cases h : resolveItem labels it <;> simp [h, ih, eq_comm]

end Sys2Proof.Assembler
end

