-- ==== Sys2Proof/Laws/Decode.lean ====
section
/-! SUPPORT. One lemma for each of the decoder's functions. -/

namespace Sys2Proof

/-- A byte that the lookup finds is the opcode of the mnemonic found. -/
theorem Mnemonic.opcode_of_ofOpcode {b : Byte} {m : Mnemonic} (h : Mnemonic.ofOpcode b = some m) : m.opcode = b := by
  have := List.find?_some h
  simpa using this

/-- Every mnemonic is found by its own opcode: no two rows of R73's table share one. -/
theorem Mnemonic.ofOpcode_opcode (m : Mnemonic) : Mnemonic.ofOpcode m.opcode = some m := by
  cases m <;> decide

/-- The bytes that the lookup does not find are those R75 lists. -/
theorem Mnemonic.ofOpcode_eq_none_iff (b : Byte) : Mnemonic.ofOpcode b = none ↔ isUndefinedByte b = true := by
  revert b
  decide

/-- Decoding an undefined byte, whatever follows it. -/
theorem decodeBytes_undefined {b : Byte} (h : Mnemonic.ofOpcode b = none) (n : Byte) : decodeBytes b n = .undefined b := by
  simp [decodeBytes, h]

/-- Decoding a defined opcode byte. -/
theorem decodeBytes_mnemonic {b : Byte} {m : Mnemonic} (h : Mnemonic.ofOpcode b = some m) (n : Byte) :
    decodeBytes b n = m.toInstr n := by
  simp [decodeBytes, h]

theorem Mnemonic.toInstr_mnemonic? (m : Mnemonic) (n : Byte) : (m.toInstr n).mnemonic? = some m := by
  cases m <;> rfl

/-- Where the opcode has no operand, the second byte makes no difference. -/
theorem decodeBytes_of_length_one {b : Byte} (h : lengthOfOpcode b = 1) (n n' : Byte) :
    decodeBytes b n = decodeBytes b n' := by
  unfold lengthOfOpcode at h
  unfold decodeBytes
  split
  · next m hm =>
    rw [hm] at h
    cases m <;> first | rfl | exact absurd h (by decide)
  · rfl

/-- The decoder on two bytes reads what the step's fetch reads. -/
theorem decode_two_bytes (b n : Byte) :
    ∃ rest, decode [b, n] = .ok (decodeBytes b n, rest) := by
  by_cases h : lengthOfOpcode b = 1
  · exact ⟨[n], by rw [decodeBytes_of_length_one h n 0]; simp [decode, h]⟩
  · exact ⟨[], by simp [decode, h]⟩

end Sys2Proof
end

