-- ==== Sys2Proof/Laws/Memory.lean ====
section
/-! SUPPORT. The laws of the memories: a read after a write, and that every operation keeps the canonical form. -/

namespace Sys2Proof.Machine

@[simp] theorem Memory.read_nil (a : Nat) : Memory.read [] a = 0 := rfl

theorem Memory.read_cons_cell (k : Nat) (v : Byte) (m : Memory) (a : Nat) :
    Memory.read ((k, v) :: m) a = if a = k then v else Memory.read m a := rfl

@[simp] theorem Memory.wf_nil : Memory.wf [] = true := rfl

theorem Memory.wfFrom_cons_cell (lo k : Nat) (v : Byte) (m : Memory) :
    Memory.wfFrom lo ((k, v) :: m) = true ↔ lo ≤ k ∧ k < 256 ∧ v ≠ 0 ∧ Memory.wfFrom (k + 1) m = true := by
  simp only [Memory.wfFrom, Bool.and_eq_true, decide_eq_true_eq, and_assoc]
  rfl

/-- A canonical list stays canonical from a lower bound. -/
theorem Memory.wfFrom_mono {lo lo' : Nat} (h : lo' ≤ lo) : ∀ {m : Memory},
    Memory.wfFrom lo m = true → Memory.wfFrom lo' m = true
  | [], _ => rfl
  | (k, v) :: m, hm => by
    rw [Memory.wfFrom_cons_cell] at hm ⊢
    exact ⟨h.trans hm.1, hm.2⟩

/-- An address below every listed one reads as 0. -/
theorem Memory.read_below {a : Nat} : ∀ {lo : Nat} {m : Memory},
    Memory.wfFrom lo m = true → a < lo → Memory.read m a = 0
  | _, [], _, _ => rfl
  | lo, (k, v) :: m, hm, ha => by
    rw [Memory.wfFrom_cons_cell] at hm
    rw [Memory.read_cons_cell, if_neg (by omega)]
    exact Memory.read_below hm.2.2.2 (by omega)

/-- What `cons` reads as, where no cell behind it has its address. -/
theorem Memory.read_cons {m : Memory} {a : Nat} (v : Byte) (hm : Memory.wfFrom (a + 1) m = true) (x : Nat) :
    Memory.read (Memory.cons a v m) x = if x = a then v else Memory.read m x := by
  unfold Memory.cons
  split
  · next hv =>
    split
    · next hx => rw [hx, Memory.read_below hm (by omega), hv]; rfl
    · rfl
  · rfl

theorem Memory.wfFrom_cons {m : Memory} {lo a : Nat} (v : Byte) (hlo : lo ≤ a) (ha : a < 256)
    (hm : Memory.wfFrom (a + 1) m = true) : Memory.wfFrom lo (Memory.cons a v m) = true := by
  unfold Memory.cons
  split
  · exact Memory.wfFrom_mono (by omega) hm
  · next hv => exact (Memory.wfFrom_cons_cell ..).2 ⟨hlo, ha, hv, hm⟩

/-- A write keeps the canonical form. -/
theorem Memory.wfFrom_write {a : Nat} (v : Byte) (ha : a < 256) : ∀ {lo : Nat} {m : Memory}, lo ≤ a →
    Memory.wfFrom lo m = true → Memory.wfFrom lo (Memory.write m a v) = true
  | _, [], hlo, _ => Memory.wfFrom_cons v hlo ha rfl
  | lo, (k, w) :: m, hlo, hm => by
    have hc := (Memory.wfFrom_cons_cell ..).1 hm
    unfold Memory.write
    split
    · next hak =>
      exact Memory.wfFrom_cons v hlo ha ((Memory.wfFrom_cons_cell ..).2 ⟨by omega, hc.2⟩)
    · split
      · next hak => exact Memory.wfFrom_cons v hlo ha (hak ▸ hc.2.2.2)
      · exact (Memory.wfFrom_cons_cell ..).2
          ⟨hc.1, hc.2.1, hc.2.2.1, Memory.wfFrom_write v ha (by omega) hc.2.2.2⟩

/-- A write keeps the canonical form (R50). -/
theorem Memory.wf_write {m : Memory} (hm : Memory.wf m = true) (a v : Byte) :
    Memory.wf (Memory.write m a.toNat v) = true :=
  Memory.wfFrom_write v a.isLt (Nat.zero_le _) hm

/-- A read after a write, from a lower bound. -/
theorem Memory.read_writeFrom {a : Nat} (v : Byte) (x : Nat) : ∀ {lo : Nat} {m : Memory}, lo ≤ a →
    Memory.wfFrom lo m = true → Memory.read (Memory.write m a v) x = if x = a then v else Memory.read m x
  | _, [], _, _ => Memory.read_cons v rfl x
  | lo, (k, w) :: m, hlo, hm => by
    have hc := (Memory.wfFrom_cons_cell ..).1 hm
    unfold Memory.write
    split
    · next hak => exact Memory.read_cons v ((Memory.wfFrom_cons_cell ..).2 ⟨by omega, hc.2⟩) x
    · split
      · next hak =>
        rw [Memory.read_cons v (hak ▸ hc.2.2.2), Memory.read_cons_cell]
        split <;> simp_all
      · rw [Memory.read_cons_cell, Memory.read_cons_cell,
          Memory.read_writeFrom v x (by omega) hc.2.2.2]
        split <;> split <;> first | rfl | omega

/-- A read after a write: the byte written at its address, every other byte as before (R57, R60). -/
theorem Memory.read_write {m : Memory} (hm : Memory.wf m = true) (a : Nat) (v : Byte) (x : Nat) :
    Memory.read (Memory.write m a v) x = if x = a then v else Memory.read m x :=
  Memory.read_writeFrom v x (Nat.zero_le _) hm

theorem Memory.wfFrom_writeBytes : ∀ {base : Nat} {m : Memory} (vs : List Byte),
    Memory.wf m = true → base + vs.length ≤ 256 → Memory.wf (Memory.writeBytes m base vs) = true
  | _, _, [], hm, _ => hm
  | base, m, v :: vs, hm, hlen => by
    simp only [List.length_cons] at hlen
    exact Memory.wfFrom_writeBytes vs
      (Memory.wfFrom_write v (by omega) (Nat.zero_le _) hm) (by omega)

/-- Bytes copied to successive addresses: byte `k` of them at `base + k`, every other byte as before (R212). -/
theorem Memory.read_writeBytes : ∀ {base : Nat} {m : Memory} (vs : List Byte) (x : Nat),
    Memory.wf m = true → base + vs.length ≤ 256 →
    Memory.read (Memory.writeBytes m base vs) x =
      if base ≤ x then (vs[x - base]?).getD (Memory.read m x) else Memory.read m x
  | _, _, [], x, _, _ => by simp [Memory.writeBytes]
  | base, m, v :: vs, x, hm, hlen => by
    simp only [List.length_cons] at hlen
    have hw := Memory.wfFrom_write (lo := 0) v (by omega : base < 256) (Nat.zero_le _) hm
    rw [Memory.writeBytes, Memory.read_writeBytes vs x hw (by omega), Memory.read_write hm]
    rcases Nat.lt_trichotomy x base with h | h | h
    · rw [if_neg (by omega), if_neg (by omega), if_neg (by omega)]
    · subst h; simp
    · have h2 : x - base = x - (base + 1) + 1 := by omega
      rw [if_pos (by omega), if_neg (by omega), if_pos (by omega), h2, List.getElem?_cons_succ]

/-- The memory of `STA` (R111). -/
theorem State.memWrite_read {s : State} (hm : Memory.wf s.dm = true) (a v x : Byte) :
    Memory.read (s.memWrite a v).dm x.toNat = if x = a then v else Memory.read s.dm x.toNat := by
  show Memory.read (Memory.write s.dm a.toNat v) x.toNat = _
  rw [Memory.read_write hm]
  simp [BitVec.toNat_inj]

theorem State.memWrite_wf {s : State} (hm : Memory.wf s.dm = true) (a v : Byte) :
    Memory.wf (s.memWrite a v).dm = true := Memory.wf_write hm a v

/-- Both memories of the reset state are in canonical form. -/
theorem State.reset_im_wf : Memory.wf State.reset.im = true := rfl

theorem State.reset_dm_wf : Memory.wf State.reset.dm = true := rfl

theorem State.coreReset_im (s : State) : s.coreReset.im = [] := rfl

/-- The instruction memory after a load of an image that fits is in canonical form (R212). -/
theorem State.coreLoad_im_wf (image : List Byte) (s : State) (h : image.length ≤ 256) :
    Memory.wf (s.coreLoad image).im = true :=
  Memory.wfFrom_writeBytes image rfl (by omega)

end Sys2Proof.Machine
end

