-- ==== Sys2Proof/Laws/State.lean ====
section
/-! SUPPORT. What each field is after each named update of Machine/Ops.lean, one lemma per field per update. -/

namespace Sys2Proof.Machine

/-! ### After `State.writeIr` -/

@[simp] theorem State.writeIr_a (op : Byte) (s : State) : (s.writeIr op).a = s.a := rfl
@[simp] theorem State.writeIr_b (op : Byte) (s : State) : (s.writeIr op).b = s.b := rfl
@[simp] theorem State.writeIr_pc (op : Byte) (s : State) : (s.writeIr op).pc = s.pc := rfl
@[simp] theorem State.writeIr_ir (op : Byte) (s : State) : (s.writeIr op).ir = op := rfl
@[simp] theorem State.writeIr_z (op : Byte) (s : State) : (s.writeIr op).z = s.z := rfl
@[simp] theorem State.writeIr_c (op : Byte) (s : State) : (s.writeIr op).c = s.c := rfl
@[simp] theorem State.writeIr_out (op : Byte) (s : State) : (s.writeIr op).out = s.out := rfl
@[simp] theorem State.writeIr_im (op : Byte) (s : State) : (s.writeIr op).im = s.im := rfl
@[simp] theorem State.writeIr_dm (op : Byte) (s : State) : (s.writeIr op).dm = s.dm := rfl
@[simp] theorem State.writeIr_activeUnits (op : Byte) (s : State) : (s.writeIr op).activeUnits = s.activeUnits := rfl
@[simp] theorem State.writeIr_aluState (op : Byte) (s : State) : (s.writeIr op).aluState = s.aluState := rfl
@[simp] theorem State.writeIr_currentDataAddress (op : Byte) (s : State) : (s.writeIr op).currentDataAddress = s.currentDataAddress := rfl
@[simp] theorem State.writeIr_signal (op : Byte) (s : State) : (s.writeIr op).signal = s.signal := rfl
@[simp] theorem State.writeIr_seqOvf (op : Byte) (s : State) : (s.writeIr op).seqOvf = s.seqOvf := rfl
@[simp] theorem State.writeIr_freeIx (op : Byte) (s : State) : (s.writeIr op).freeIx = s.freeIx := rfl
@[simp] theorem State.writeIr_host (op : Byte) (s : State) : (s.writeIr op).host = s.host := rfl

/-! ### After `State.latchIr` -/

@[simp] theorem State.latchIr_a (s : State) : s.latchIr.a = s.a := rfl
@[simp] theorem State.latchIr_b (s : State) : s.latchIr.b = s.b := rfl
@[simp] theorem State.latchIr_pc (s : State) : s.latchIr.pc = s.pc := rfl
@[simp] theorem State.latchIr_ir (s : State) : s.latchIr.ir = s.fetchByte s.pc := rfl
@[simp] theorem State.latchIr_z (s : State) : s.latchIr.z = s.z := rfl
@[simp] theorem State.latchIr_c (s : State) : s.latchIr.c = s.c := rfl
@[simp] theorem State.latchIr_out (s : State) : s.latchIr.out = s.out := rfl
@[simp] theorem State.latchIr_im (s : State) : s.latchIr.im = s.im := rfl
@[simp] theorem State.latchIr_dm (s : State) : s.latchIr.dm = s.dm := rfl
@[simp] theorem State.latchIr_activeUnits (s : State) : s.latchIr.activeUnits = s.activeUnits := rfl
@[simp] theorem State.latchIr_aluState (s : State) : s.latchIr.aluState = s.aluState := rfl
@[simp] theorem State.latchIr_currentDataAddress (s : State) : s.latchIr.currentDataAddress = s.currentDataAddress := rfl
@[simp] theorem State.latchIr_signal (s : State) : s.latchIr.signal = s.signal := rfl
@[simp] theorem State.latchIr_seqOvf (s : State) : s.latchIr.seqOvf = s.seqOvf := rfl
@[simp] theorem State.latchIr_freeIx (s : State) : s.latchIr.freeIx = s.freeIx := rfl
@[simp] theorem State.latchIr_host (s : State) : s.latchIr.host = s.host := rfl

/-! ### After `State.enter` -/

@[simp] theorem State.enter_a (i : Instr) (s : State) : (s.enter i).a = s.a := rfl
@[simp] theorem State.enter_b (i : Instr) (s : State) : (s.enter i).b = s.b := rfl
@[simp] theorem State.enter_pc (i : Instr) (s : State) : (s.enter i).pc = s.pc + BitVec.ofNat 8 i.length := rfl
@[simp] theorem State.enter_ir (i : Instr) (s : State) : (s.enter i).ir = s.ir := rfl
@[simp] theorem State.enter_z (i : Instr) (s : State) : (s.enter i).z = s.z := rfl
@[simp] theorem State.enter_c (i : Instr) (s : State) : (s.enter i).c = s.c := rfl
@[simp] theorem State.enter_out (i : Instr) (s : State) : (s.enter i).out = s.out := rfl
@[simp] theorem State.enter_im (i : Instr) (s : State) : (s.enter i).im = s.im := rfl
@[simp] theorem State.enter_dm (i : Instr) (s : State) : (s.enter i).dm = s.dm := rfl
@[simp] theorem State.enter_activeUnits (i : Instr) (s : State) : (s.enter i).activeUnits = unitsOf i := rfl
@[simp] theorem State.enter_aluState (i : Instr) (s : State) : (s.enter i).aluState = Config.freeAluState s.freeIx := rfl
@[simp] theorem State.enter_currentDataAddress (i : Instr) (s : State) : (s.enter i).currentDataAddress = s.currentDataAddress := rfl
@[simp] theorem State.enter_signal (i : Instr) (s : State) : (s.enter i).signal = .cont := rfl
@[simp] theorem State.enter_seqOvf (i : Instr) (s : State) : (s.enter i).seqOvf = passesEnd s.pc i.length := rfl
@[simp] theorem State.enter_freeIx (i : Instr) (s : State) : (s.enter i).freeIx = s.freeIx + 1 := rfl
@[simp] theorem State.enter_host (i : Instr) (s : State) : (s.enter i).host = s.host := rfl

/-! ### After `State.writeA` -/

@[simp] theorem State.writeA_a (v : Byte) (s : State) : (s.writeA v).a = v := rfl
@[simp] theorem State.writeA_b (v : Byte) (s : State) : (s.writeA v).b = s.b := rfl
@[simp] theorem State.writeA_pc (v : Byte) (s : State) : (s.writeA v).pc = s.pc := rfl
@[simp] theorem State.writeA_ir (v : Byte) (s : State) : (s.writeA v).ir = s.ir := rfl
@[simp] theorem State.writeA_z (v : Byte) (s : State) : (s.writeA v).z = decide (v = 0) := rfl
@[simp] theorem State.writeA_c (v : Byte) (s : State) : (s.writeA v).c = s.c := rfl
@[simp] theorem State.writeA_out (v : Byte) (s : State) : (s.writeA v).out = s.out := rfl
@[simp] theorem State.writeA_im (v : Byte) (s : State) : (s.writeA v).im = s.im := rfl
@[simp] theorem State.writeA_dm (v : Byte) (s : State) : (s.writeA v).dm = s.dm := rfl
@[simp] theorem State.writeA_activeUnits (v : Byte) (s : State) : (s.writeA v).activeUnits = s.activeUnits := rfl
@[simp] theorem State.writeA_aluState (v : Byte) (s : State) : (s.writeA v).aluState = s.aluState := rfl
@[simp] theorem State.writeA_currentDataAddress (v : Byte) (s : State) : (s.writeA v).currentDataAddress = s.currentDataAddress := rfl
@[simp] theorem State.writeA_signal (v : Byte) (s : State) : (s.writeA v).signal = s.signal := rfl
@[simp] theorem State.writeA_seqOvf (v : Byte) (s : State) : (s.writeA v).seqOvf = s.seqOvf := rfl
@[simp] theorem State.writeA_freeIx (v : Byte) (s : State) : (s.writeA v).freeIx = s.freeIx := rfl
@[simp] theorem State.writeA_host (v : Byte) (s : State) : (s.writeA v).host = s.host := rfl

/-! ### After `State.writeCarry` -/

@[simp] theorem State.writeCarry_a (b : Bool) (s : State) : (s.writeCarry b).a = s.a := rfl
@[simp] theorem State.writeCarry_b (b : Bool) (s : State) : (s.writeCarry b).b = s.b := rfl
@[simp] theorem State.writeCarry_pc (b : Bool) (s : State) : (s.writeCarry b).pc = s.pc := rfl
@[simp] theorem State.writeCarry_ir (b : Bool) (s : State) : (s.writeCarry b).ir = s.ir := rfl
@[simp] theorem State.writeCarry_z (b : Bool) (s : State) : (s.writeCarry b).z = s.z := rfl
@[simp] theorem State.writeCarry_c (b : Bool) (s : State) : (s.writeCarry b).c = b := rfl
@[simp] theorem State.writeCarry_out (b : Bool) (s : State) : (s.writeCarry b).out = s.out := rfl
@[simp] theorem State.writeCarry_im (b : Bool) (s : State) : (s.writeCarry b).im = s.im := rfl
@[simp] theorem State.writeCarry_dm (b : Bool) (s : State) : (s.writeCarry b).dm = s.dm := rfl
@[simp] theorem State.writeCarry_activeUnits (b : Bool) (s : State) : (s.writeCarry b).activeUnits = s.activeUnits := rfl
@[simp] theorem State.writeCarry_aluState (b : Bool) (s : State) : (s.writeCarry b).aluState = s.aluState := rfl
@[simp] theorem State.writeCarry_currentDataAddress (b : Bool) (s : State) : (s.writeCarry b).currentDataAddress = s.currentDataAddress := rfl
@[simp] theorem State.writeCarry_signal (b : Bool) (s : State) : (s.writeCarry b).signal = s.signal := rfl
@[simp] theorem State.writeCarry_seqOvf (b : Bool) (s : State) : (s.writeCarry b).seqOvf = s.seqOvf := rfl
@[simp] theorem State.writeCarry_freeIx (b : Bool) (s : State) : (s.writeCarry b).freeIx = s.freeIx := rfl
@[simp] theorem State.writeCarry_host (b : Bool) (s : State) : (s.writeCarry b).host = s.host := rfl

/-! ### After `State.writeOut` -/

@[simp] theorem State.writeOut_a (v : Byte) (s : State) : (s.writeOut v).a = s.a := rfl
@[simp] theorem State.writeOut_b (v : Byte) (s : State) : (s.writeOut v).b = s.b := rfl
@[simp] theorem State.writeOut_pc (v : Byte) (s : State) : (s.writeOut v).pc = s.pc := rfl
@[simp] theorem State.writeOut_ir (v : Byte) (s : State) : (s.writeOut v).ir = s.ir := rfl
@[simp] theorem State.writeOut_z (v : Byte) (s : State) : (s.writeOut v).z = s.z := rfl
@[simp] theorem State.writeOut_c (v : Byte) (s : State) : (s.writeOut v).c = s.c := rfl
@[simp] theorem State.writeOut_out (v : Byte) (s : State) : (s.writeOut v).out = v := rfl
@[simp] theorem State.writeOut_im (v : Byte) (s : State) : (s.writeOut v).im = s.im := rfl
@[simp] theorem State.writeOut_dm (v : Byte) (s : State) : (s.writeOut v).dm = s.dm := rfl
@[simp] theorem State.writeOut_activeUnits (v : Byte) (s : State) : (s.writeOut v).activeUnits = s.activeUnits := rfl
@[simp] theorem State.writeOut_aluState (v : Byte) (s : State) : (s.writeOut v).aluState = s.aluState := rfl
@[simp] theorem State.writeOut_currentDataAddress (v : Byte) (s : State) : (s.writeOut v).currentDataAddress = s.currentDataAddress := rfl
@[simp] theorem State.writeOut_signal (v : Byte) (s : State) : (s.writeOut v).signal = s.signal := rfl
@[simp] theorem State.writeOut_seqOvf (v : Byte) (s : State) : (s.writeOut v).seqOvf = s.seqOvf := rfl
@[simp] theorem State.writeOut_freeIx (v : Byte) (s : State) : (s.writeOut v).freeIx = s.freeIx := rfl
@[simp] theorem State.writeOut_host (v : Byte) (s : State) : (s.writeOut v).host = s.host := rfl

/-! ### After `State.touch` -/

@[simp] theorem State.touch_a (n : Byte) (s : State) : (s.touch n).a = s.a := rfl
@[simp] theorem State.touch_b (n : Byte) (s : State) : (s.touch n).b = s.b := rfl
@[simp] theorem State.touch_pc (n : Byte) (s : State) : (s.touch n).pc = s.pc := rfl
@[simp] theorem State.touch_ir (n : Byte) (s : State) : (s.touch n).ir = s.ir := rfl
@[simp] theorem State.touch_z (n : Byte) (s : State) : (s.touch n).z = s.z := rfl
@[simp] theorem State.touch_c (n : Byte) (s : State) : (s.touch n).c = s.c := rfl
@[simp] theorem State.touch_out (n : Byte) (s : State) : (s.touch n).out = s.out := rfl
@[simp] theorem State.touch_im (n : Byte) (s : State) : (s.touch n).im = s.im := rfl
@[simp] theorem State.touch_dm (n : Byte) (s : State) : (s.touch n).dm = s.dm := rfl
@[simp] theorem State.touch_activeUnits (n : Byte) (s : State) : (s.touch n).activeUnits = s.activeUnits := rfl
@[simp] theorem State.touch_aluState (n : Byte) (s : State) : (s.touch n).aluState = s.aluState := rfl
@[simp] theorem State.touch_currentDataAddress (n : Byte) (s : State) : (s.touch n).currentDataAddress = some n := rfl
@[simp] theorem State.touch_signal (n : Byte) (s : State) : (s.touch n).signal = s.signal := rfl
@[simp] theorem State.touch_seqOvf (n : Byte) (s : State) : (s.touch n).seqOvf = s.seqOvf := rfl
@[simp] theorem State.touch_freeIx (n : Byte) (s : State) : (s.touch n).freeIx = s.freeIx := rfl
@[simp] theorem State.touch_host (n : Byte) (s : State) : (s.touch n).host = s.host := rfl

/-! ### After `State.memWrite` -/

@[simp] theorem State.memWrite_a (n v : Byte) (s : State) : (s.memWrite n v).a = s.a := rfl
@[simp] theorem State.memWrite_b (n v : Byte) (s : State) : (s.memWrite n v).b = s.b := rfl
@[simp] theorem State.memWrite_pc (n v : Byte) (s : State) : (s.memWrite n v).pc = s.pc := rfl
@[simp] theorem State.memWrite_ir (n v : Byte) (s : State) : (s.memWrite n v).ir = s.ir := rfl
@[simp] theorem State.memWrite_z (n v : Byte) (s : State) : (s.memWrite n v).z = s.z := rfl
@[simp] theorem State.memWrite_c (n v : Byte) (s : State) : (s.memWrite n v).c = s.c := rfl
@[simp] theorem State.memWrite_out (n v : Byte) (s : State) : (s.memWrite n v).out = s.out := rfl
@[simp] theorem State.memWrite_im (n v : Byte) (s : State) : (s.memWrite n v).im = s.im := rfl
@[simp] theorem State.memWrite_dm (n v : Byte) (s : State) : (s.memWrite n v).dm = Memory.write s.dm n.toNat v := rfl
@[simp] theorem State.memWrite_activeUnits (n v : Byte) (s : State) : (s.memWrite n v).activeUnits = s.activeUnits := rfl
@[simp] theorem State.memWrite_aluState (n v : Byte) (s : State) : (s.memWrite n v).aluState = s.aluState := rfl
@[simp] theorem State.memWrite_currentDataAddress (n v : Byte) (s : State) : (s.memWrite n v).currentDataAddress = s.currentDataAddress := rfl
@[simp] theorem State.memWrite_signal (n v : Byte) (s : State) : (s.memWrite n v).signal = s.signal := rfl
@[simp] theorem State.memWrite_seqOvf (n v : Byte) (s : State) : (s.memWrite n v).seqOvf = s.seqOvf := rfl
@[simp] theorem State.memWrite_freeIx (n v : Byte) (s : State) : (s.memWrite n v).freeIx = s.freeIx := rfl
@[simp] theorem State.memWrite_host (n v : Byte) (s : State) : (s.memWrite n v).host = s.host := rfl

/-! ### After `State.jumpTo` -/

@[simp] theorem State.jumpTo_a (n : Byte) (s : State) : (s.jumpTo n).a = s.a := rfl
@[simp] theorem State.jumpTo_b (n : Byte) (s : State) : (s.jumpTo n).b = s.b := rfl
@[simp] theorem State.jumpTo_pc (n : Byte) (s : State) : (s.jumpTo n).pc = n := rfl
@[simp] theorem State.jumpTo_ir (n : Byte) (s : State) : (s.jumpTo n).ir = s.ir := rfl
@[simp] theorem State.jumpTo_z (n : Byte) (s : State) : (s.jumpTo n).z = s.z := rfl
@[simp] theorem State.jumpTo_c (n : Byte) (s : State) : (s.jumpTo n).c = s.c := rfl
@[simp] theorem State.jumpTo_out (n : Byte) (s : State) : (s.jumpTo n).out = s.out := rfl
@[simp] theorem State.jumpTo_im (n : Byte) (s : State) : (s.jumpTo n).im = s.im := rfl
@[simp] theorem State.jumpTo_dm (n : Byte) (s : State) : (s.jumpTo n).dm = s.dm := rfl
@[simp] theorem State.jumpTo_activeUnits (n : Byte) (s : State) : (s.jumpTo n).activeUnits = s.activeUnits := rfl
@[simp] theorem State.jumpTo_aluState (n : Byte) (s : State) : (s.jumpTo n).aluState = s.aluState := rfl
@[simp] theorem State.jumpTo_currentDataAddress (n : Byte) (s : State) : (s.jumpTo n).currentDataAddress = s.currentDataAddress := rfl
@[simp] theorem State.jumpTo_signal (n : Byte) (s : State) : (s.jumpTo n).signal = s.signal := rfl
@[simp] theorem State.jumpTo_seqOvf (n : Byte) (s : State) : (s.jumpTo n).seqOvf = false := rfl
@[simp] theorem State.jumpTo_freeIx (n : Byte) (s : State) : (s.jumpTo n).freeIx = s.freeIx := rfl
@[simp] theorem State.jumpTo_host (n : Byte) (s : State) : (s.jumpTo n).host = s.host := rfl

/-! ### After `State.jumpIf` -/

@[simp] theorem State.jumpIf_a (j : Bool) (n : Byte) (s : State) : (s.jumpIf j n).a = s.a := by cases j <;> rfl
@[simp] theorem State.jumpIf_b (j : Bool) (n : Byte) (s : State) : (s.jumpIf j n).b = s.b := by cases j <;> rfl
@[simp] theorem State.jumpIf_pc (j : Bool) (n : Byte) (s : State) : (s.jumpIf j n).pc = if j = true then n else s.pc := by cases j <;> simp [State.jumpIf]
@[simp] theorem State.jumpIf_ir (j : Bool) (n : Byte) (s : State) : (s.jumpIf j n).ir = s.ir := by cases j <;> rfl
@[simp] theorem State.jumpIf_z (j : Bool) (n : Byte) (s : State) : (s.jumpIf j n).z = s.z := by cases j <;> rfl
@[simp] theorem State.jumpIf_c (j : Bool) (n : Byte) (s : State) : (s.jumpIf j n).c = s.c := by cases j <;> rfl
@[simp] theorem State.jumpIf_out (j : Bool) (n : Byte) (s : State) : (s.jumpIf j n).out = s.out := by cases j <;> rfl
@[simp] theorem State.jumpIf_im (j : Bool) (n : Byte) (s : State) : (s.jumpIf j n).im = s.im := by cases j <;> rfl
@[simp] theorem State.jumpIf_dm (j : Bool) (n : Byte) (s : State) : (s.jumpIf j n).dm = s.dm := by cases j <;> rfl
@[simp] theorem State.jumpIf_activeUnits (j : Bool) (n : Byte) (s : State) : (s.jumpIf j n).activeUnits = s.activeUnits := by cases j <;> rfl
@[simp] theorem State.jumpIf_aluState (j : Bool) (n : Byte) (s : State) : (s.jumpIf j n).aluState = s.aluState := by cases j <;> rfl
@[simp] theorem State.jumpIf_currentDataAddress (j : Bool) (n : Byte) (s : State) : (s.jumpIf j n).currentDataAddress = s.currentDataAddress := by cases j <;> rfl
@[simp] theorem State.jumpIf_signal (j : Bool) (n : Byte) (s : State) : (s.jumpIf j n).signal = s.signal := by cases j <;> rfl
@[simp] theorem State.jumpIf_seqOvf (j : Bool) (n : Byte) (s : State) : (s.jumpIf j n).seqOvf = (s.seqOvf && !j) := by cases j <;> simp [State.jumpIf]
@[simp] theorem State.jumpIf_freeIx (j : Bool) (n : Byte) (s : State) : (s.jumpIf j n).freeIx = s.freeIx := by cases j <;> rfl
@[simp] theorem State.jumpIf_host (j : Bool) (n : Byte) (s : State) : (s.jumpIf j n).host = s.host := by cases j <;> rfl

/-! ### After `State.raiseHalt` -/

@[simp] theorem State.raiseHalt_a (s : State) : s.raiseHalt.a = s.a := rfl
@[simp] theorem State.raiseHalt_b (s : State) : s.raiseHalt.b = s.b := rfl
@[simp] theorem State.raiseHalt_pc (s : State) : s.raiseHalt.pc = s.pc := rfl
@[simp] theorem State.raiseHalt_ir (s : State) : s.raiseHalt.ir = s.ir := rfl
@[simp] theorem State.raiseHalt_z (s : State) : s.raiseHalt.z = s.z := rfl
@[simp] theorem State.raiseHalt_c (s : State) : s.raiseHalt.c = s.c := rfl
@[simp] theorem State.raiseHalt_out (s : State) : s.raiseHalt.out = s.out := rfl
@[simp] theorem State.raiseHalt_im (s : State) : s.raiseHalt.im = s.im := rfl
@[simp] theorem State.raiseHalt_dm (s : State) : s.raiseHalt.dm = s.dm := rfl
@[simp] theorem State.raiseHalt_activeUnits (s : State) : s.raiseHalt.activeUnits = s.activeUnits := rfl
@[simp] theorem State.raiseHalt_aluState (s : State) : s.raiseHalt.aluState = s.aluState := rfl
@[simp] theorem State.raiseHalt_currentDataAddress (s : State) : s.raiseHalt.currentDataAddress = s.currentDataAddress := rfl
@[simp] theorem State.raiseHalt_signal (s : State) : s.raiseHalt.signal = .halt := rfl
@[simp] theorem State.raiseHalt_seqOvf (s : State) : s.raiseHalt.seqOvf = s.seqOvf := rfl
@[simp] theorem State.raiseHalt_freeIx (s : State) : s.raiseHalt.freeIx = s.freeIx := rfl
@[simp] theorem State.raiseHalt_host (s : State) : s.raiseHalt.host = s.host := rfl

end Sys2Proof.Machine
end

