-- ==== Sys2Proof/Laws/Exec.lean ====
section
/-! SUPPORT. What the shared operations of a step can do, said once: the fetch, the pre-advance, the meanings, the signals. -/

namespace Sys2Proof.Machine

/-- The sequential advance passes address 255 (R86). -/
theorem passesEnd_iff (p : Byte) (len : Nat) : passesEnd p len = true ↔ 255 < p.toNat + len := by
  rw [passesEnd, decide_eq_true_eq]

/-- A unit is in a set made of a list exactly where it is in the list (R35). -/
theorem mem_unitSet (l : List UnitTag) (u : UnitTag) : u ∈ unitSet l ↔ u ∈ l := by
  unfold unitSet
  rw [List.mem_filter, decide_eq_true_eq]
  constructor
  · exact And.right
  · exact fun h => ⟨by cases u <;> decide, h⟩

/-- Every meaning gives a next state: no instruction faults (R190). -/
theorem exec_next (i : Instr) (s : State) : ∃ t, exec i s = .next t := by
  cases i <;> exact ⟨_, rfl⟩

/-- The instruction fetched where the byte at `PC` is an undefined opcode (R75). -/
theorem State.fetchInstr_undefined {s : State} (h : Mnemonic.ofOpcode (s.fetchByte s.pc) = none) :
    s.fetchInstr = .undefined (s.fetchByte s.pc) := decodeBytes_undefined h _

/-- The instruction fetched where the byte at `PC` is a defined opcode (R73, R83). -/
theorem State.fetchInstr_mnemonic {s : State} {m : Mnemonic} (h : Mnemonic.ofOpcode (s.fetchByte s.pc) = some m) :
    s.fetchInstr = m.toInstr (s.fetchByte (s.pc + 1)) := decodeBytes_mnemonic h _

/-- What a step fetches: the opcode byte of a mnemonic and the operand byte after it, or an undefined byte (R80). -/
theorem State.fetch_cases (s : State) :
    (∃ m : Mnemonic, s.fetchByte s.pc = m.opcode ∧ s.fetchInstr = m.toInstr (s.fetchByte (s.pc + 1))) ∨
      (isUndefinedByte (s.fetchByte s.pc) = true ∧ s.fetchInstr = .undefined (s.fetchByte s.pc)) := by
  cases hm : Mnemonic.ofOpcode (s.fetchByte s.pc) with
  | none => exact .inr ⟨(Mnemonic.ofOpcode_eq_none_iff _).1 hm, State.fetchInstr_undefined hm⟩
  | some m => exact .inl ⟨m, (Mnemonic.opcode_of_ofOpcode hm).symm, State.fetchInstr_mnemonic hm⟩

/-- The architectural view of a state before an instruction's own writes (R80). -/
theorem State.enter_arch (i : Instr) (s : State) :
    (s.enter i).arch =
      { s.arch with
        pc := s.pc + BitVec.ofNat 8 i.length
        signal := .cont
        seqOvf := passesEnd s.pc i.length } := rfl

/-- No meaning writes `B`, `IM` or the host's scheduler (R21, R51, R38). -/
theorem exec_keeps {i : Instr} {s t : State} (h : exec i s = .next t) :
    t.b = s.b ∧ t.im = s.im ∧ t.host = s.host := by
  cases i <;> cases h <;> simp

/-- `DM` after an instruction: STA writes one byte of it, every other instruction none (R56). -/
def dmAfter (i : Instr) (s : State) : Memory :=
  match i with
  | .sta n => Memory.write s.dm (effectiveAddress n).toNat s.a
  | _ => s.dm

/-- `IR` after a meaning: only an undefined byte's rule writes it, with the byte itself (R173). -/
def irAfter (i : Instr) (s : State) : Byte :=
  match i with
  | .undefined op => op
  | _ => s.ir

/-- `PC` after an instruction (R84, R150 to R152). -/
def pcAfter (i : Instr) (s : State) : Byte :=
  match i with
  | .jmp n => jumpTarget n
  | .jc n => if s.c then jumpTarget n else s.pc + BitVec.ofNat 8 i.length
  | .jz n => if s.z then jumpTarget n else s.pc + BitVec.ofNat 8 i.length
  | _ => s.pc + BitVec.ofNat 8 i.length

/-- The signal an instruction returns: halt for HLT, else continue (R85). -/
def signalAfter : Instr → Signal
  | .hlt => .halt
  | _ => .cont

theorem exec_dm {i : Instr} {s t : State} (h : exec i s = .next t) : t.dm = dmAfter i s := by
  cases i <;> cases h <;> simp [dmAfter]

theorem exec_ir {i : Instr} {s t : State} (h : exec i s = .next t) : t.ir = irAfter i s := by
  cases i <;> cases h <;> simp [irAfter]

theorem exec_pc {i : Instr} {s t : State} (h : exec i s = .next t) : t.pc = pcAfter i s := by
  cases i <;> cases h <;> simp [pcAfter]

theorem exec_signal {i : Instr} {s t : State} (h : exec i s = .next t) : t.signal = signalAfter i := by
  cases i <;> cases h <;> simp [signalAfter]

/-- `seqovf` of a meaning: the sequential advance passes 255 and no jump is taken (R86). -/
theorem exec_seqOvf {i : Instr} {s t : State} (h : exec i s = .next t) :
    t.seqOvf = (passesEnd s.pc i.length && !taken i s) := by
  cases i <;> cases h <;> simp [taken]

/-- A step is one meaning on the state whose `IR` holds the opcode byte, so what every meaning keeps the step keeps. -/
theorem step_keeps {s t : State} (h : step s = .next t) : t.b = s.b ∧ t.im = s.im ∧ t.host = s.host := by
  simpa using exec_keeps h

end Sys2Proof.Machine
end

