-- ==== Sys2Proof/Laws/Host.lean ====
section
/-! SUPPORT. What each of the host's operations can do, said once. -/

namespace Sys2Proof.Machine

/-- The host's step is the core's. -/
theorem coreStep_ok_iff {s t : State} : coreStep s = .ok t ↔ step s = .next t := by
  obtain ⟨u, hu⟩ := exec_next s.fetchInstr s.latchIr
  have hs : step s = .next u := hu
  unfold coreStep
  rw [hs]
  simp

/-- `stop()` ends a run that is in progress and does nothing else (R218). -/
theorem State.hostStop_cases (s : State) :
    (s.host.running = true ∧
        s.hostStop = { s with host := { s.host with running := false, lifecycle := .haltedOrStopped } }) ∨
      (s.host.running = false ∧ s.hostStop = s) := by
  unfold State.hostStop
  cases h : s.host.running <;> simp

/-- `stop()` leaves the core as it was (R218). -/
theorem State.hostStop_core (s : State) : { s.hostStop with host := s.host } = s := by
  obtain ⟨-, h⟩ | ⟨-, h⟩ := s.hostStop_cases <;> rw [h]

/-- `step()` is one step, where no run is in progress (R216). -/
theorem hostStep_ok {s u : State} (h : hostStep s = .ok u) : s.host.running = false ∧ step s = .next u := by
  unfold hostStep at h
  split at h
  · simp at h
  · next hr => exact ⟨by simpa using hr, coreStep_ok_iff.1 h⟩

/-- A tick is one step of a run in progress, and then `stop()` where the step ends the run (R217). -/
theorem hostTick_ok {policy : PcEndPolicy} {s u : State} (h : hostTick policy s = .ok u) :
    s.host.running = true ∧ ∃ t, step s = .next t ∧ u = if endsRun policy t then t.hostStop else t := by
  obtain ⟨t, ht⟩ := exec_next s.fetchInstr s.latchIr
  have hs : step s = .next t := ht
  unfold hostTick at h
  split at h
  · next hr =>
    rw [coreStep_ok_iff.2 hs] at h
    exact ⟨hr, t, hs, by simpa [Except.map] using h.symm⟩
  · simp at h

/-- `load` takes an image of at most 256 bytes (R212, R213). -/
theorem hostLoad_ok {image : List Byte} {sourceMap : List (Nat × Nat)} {s u : State}
    (h : hostLoad image sourceMap s = .ok u) : image.length ≤ 256 ∧ u = s.loadImage image sourceMap := by
  unfold hostLoad at h
  split at h
  · next hl => exact ⟨hl, by simpa using h.symm⟩
  · simp at h

/-- A source text is loaded where it assembles to an image that fits (R100, R224). -/
theorem hostAssembleLoad_ok {text : String} {s u : State} (h : hostAssembleLoad text s = .ok u) :
    ∃ r, Assembler.assemble text = .ok r ∧ r.image.length ≤ 256 ∧ u = s.loadImage r.image r.sourceMap := by
  unfold hostAssembleLoad at h
  split at h
  · simp at h
  · next r hr => exact ⟨r, hr, hostLoad_ok h⟩

/-- `run()` leaves a run in progress and the core as it was (R217). -/
theorem State.hostRun_core (s : State) : s.hostRun.host.running = true ∧ { s.hostRun with host := s.host } = s := by
  unfold State.hostRun
  split
  · next h => exact ⟨h, rfl⟩
  · exact ⟨rfl, rfl⟩

/-- An operation after which a run is still in progress was a tick that did not end it, `run()` or a change of the clock
speed, or it was `run()` that started one. -/
theorem hostApply_running {policy : PcEndPolicy} {op : HostOp} {s t : State} (h : hostApply policy op s = .ok t)
    (hr : t.host.running = true) :
    (op = .tick ∧ step s = .next t) ∨ (op = .run ∧ t = s.hostRun) ∨
      ∃ hz, op = .setClockSpeed hz ∧ t = s.hostSetClockSpeed hz := by
  have stopped : ∀ u : State, u.hostStop.host.running = false := by
    intro u
    obtain ⟨-, e⟩ | ⟨hu, e⟩ := u.hostStop_cases <;> rw [e]
    exact hu
  have loaded : ∀ image sourceMap, (s.loadImage image sourceMap).host.running = false := fun _ _ => stopped s
  cases op with
  | reset => cases h; exact absurd hr (by simp [show s.hostReset.host.running = false from stopped s])
  | load image sourceMap => obtain ⟨-, rfl⟩ := hostLoad_ok h; simp [loaded] at hr
  | assembleLoad text => obtain ⟨_, -, -, rfl⟩ := hostAssembleLoad_ok h; simp [loaded] at hr
  | step =>
    obtain ⟨hs, ht⟩ := hostStep_ok h
    rw [(step_keeps ht).2.2, hs] at hr
    cases hr
  | run => cases h; exact .inr (.inl ⟨rfl, rfl⟩)
  | tick =>
    obtain ⟨-, u, hu, rfl⟩ := hostTick_ok h
    split at hr
    · rw [stopped] at hr; cases hr
    · next he => rw [if_neg he]; exact .inl ⟨rfl, hu⟩
  | stop => cases h; rw [stopped] at hr; cases hr
  | setClockSpeed hz => cases h; exact .inr (.inr ⟨hz, rfl, rfl⟩)

/-- A run is in progress in each of its states, and `IM` is the one it started with. -/
theorem InRun.keeps {policy : PcEndPolicy} {s t : State} (h : InRun policy s t) :
    t.host.running = true ∧ t.im = s.im := by
  have run_im : ∀ u : State, u.hostRun.im = u.im := fun u => (congrArg State.im u.hostRun_core.2 :)
  induction h with
  | start => exact ⟨s.hostRun_core.1, run_im s⟩
  | operation op _ h hr ih =>
    refine ⟨hr, ?_⟩
    rw [← ih.2]
    obtain ⟨-, hs⟩ | ⟨-, rfl⟩ | ⟨hz, -, rfl⟩ := hostApply_running h hr
    · exact (step_keeps hs).2.1
    · exact run_im _
    · rfl

/-- A run of ticks with nothing between them that the halt signal ends is a run to completion. -/
theorem RunsToCompletion.of_runTicks {policy : PcEndPolicy} {s t : State} {n : Nat}
    (h : runTicks policy n s.hostRun = .ok t) (hr : t.host.running = false) (hs : t.signal = .halt) :
    RunsToCompletion policy s t := by
  have from_inRun : ∀ (n : Nat) (u : State), InRun policy s u → runTicks policy n u = .ok t →
      RunsToCompletion policy s t := by
    intro n
    induction n with
    | zero =>
      intro u hu h
      cases h
      rw [hu.keeps.1] at hr
      cases hr
    | succ n ih =>
      intro u hu h
      unfold runTicks at h
      split at h
      · next v hv =>
        by_cases hvr : v.host.running = true
        · exact ih v (.operation .tick hu hv hvr) h
        · match n with
          | 0 =>
            cases h
            exact ⟨u, hu, hv, hr, hs⟩
          | n + 1 => simp [runTicks, hostTick, hvr] at h
      · cases h
  exact from_inRun n _ .start h

end Sys2Proof.Machine
end

