-- ==== Sys2Proof/Laws/PerInstr.lean ====
section
/-! SUPPORT. The per-instruction family EncodingLength: an instruction's encoding has one byte and its operand bytes. -/

namespace Sys2Proof.Laws.EncodingLength

/-- The encoding of `i` has `Instr.length i` bytes, which is 1 or 2 (R70, R74). -/
def Statement (i : Instr) : Prop :=
  (encode i).length = i.length ∧ (i.length = 1 ∨ i.length = 2)

theorem nop : Statement .nop := ⟨rfl, .inl rfl⟩

theorem lda (n : Byte) : Statement (.lda n) := ⟨rfl, .inr rfl⟩

theorem add (n : Byte) : Statement (.add n) := ⟨rfl, .inr rfl⟩

theorem sub (n : Byte) : Statement (.sub n) := ⟨rfl, .inr rfl⟩

theorem sta (n : Byte) : Statement (.sta n) := ⟨rfl, .inr rfl⟩

theorem ldi (n : Byte) : Statement (.ldi n) := ⟨rfl, .inr rfl⟩

theorem jmp (n : Byte) : Statement (.jmp n) := ⟨rfl, .inr rfl⟩

theorem jc (n : Byte) : Statement (.jc n) := ⟨rfl, .inr rfl⟩

theorem jz (n : Byte) : Statement (.jz n) := ⟨rfl, .inr rfl⟩

theorem out : Statement .out := ⟨rfl, .inl rfl⟩

theorem hlt : Statement .hlt := ⟨rfl, .inl rfl⟩

theorem undefined (op : Byte) : Statement (.undefined op) := ⟨rfl, .inl rfl⟩

end Sys2Proof.Laws.EncodingLength
end

