-- ==== Sys2Proof/Laws/Ports.lean ====
section
/-! SUPPORT. What one clock edge can do, said once. -/

namespace Sys2Proof.Machine

/-- `dmem_we` is 1 exactly at an edge that performs a step, with STA's opcode byte at `PC` (R39). -/
theorem dmemWe_iff (i : EdgeInputs) (s : State) :
    dmemWe i s = true ↔ i.stepEn = true ∧ i.rst = false ∧ s.fetchByte s.pc = 0x04 := by
  have opcode : ∀ b : Byte, Mnemonic.ofOpcode b = some .sta ↔ b = 0x04 := by decide
  simp [dmemWe, EdgeInputs.performsStep, imemRdata0, imemAddr0, opcode, and_assoc]

/-- An edge with a next state resets the core, performs one step, or writes at most a byte of `IM` (R39, R214). -/
theorem clockEdge_ok {i : EdgeInputs} {s t : State} (h : clockEdge i s = .ok t) :
    (i.rst = true ∧ t = s.coreReset) ∨
    (i.rst = false ∧ i.stepEn = true ∧ step s = .next t) ∨
    (i.rst = false ∧ i.stepEn = false ∧
      t = { s with im := if i.imemWe then Memory.write s.im i.imemWaddr.toNat i.imemWdata else s.im }) := by
  obtain ⟨u, hu⟩ := exec_next s.fetchInstr s.latchIr
  have hs : step s = .next u := hu
  obtain ⟨rst, stepEn, imemWe, waddr, wdata⟩ := i
  cases rst <;> cases stepEn <;> cases imemWe <;> simp [clockEdge, hs] at h ⊢ <;> first | exact h.symm | exact h

end Sys2Proof.Machine
end

