-- ==== Sys2Proof/Tests/Slice0.lean ====
section
/-! SUPPORT. The model's own tests, with expected values from 95_test_vectors.md and the rules' examples, and a witness for
the hypotheses of each statement of Certificates/Slice0/Obligations.lean. -/

namespace Sys2Proof.Tests

open Sys2Proof.Machine

/-! ### Well-formedness: what the one check refuses and accepts (R75) -/

theorem test_undefined_refuses_an_opcode_byte : (Instr.undefined 0x0F).wellFormed = false := by decide

theorem test_undefined_refuses_the_last_of_the_low_opcodes : (Instr.undefined 0x09).wellFormed = false := by decide

theorem test_undefined_takes_the_bytes_around_hlt :
    (Instr.undefined 0x0A).wellFormed = true ∧ (Instr.undefined 0x0E).wellFormed = true ∧
      (Instr.undefined 0x10).wellFormed = true ∧ (Instr.undefined 0xFF).wellFormed = true := by decide

/-! ### Decoding: each constructor from a word written out from R73's bit column -/

theorem test_decode_nop : decode [0b00000000#8] = .ok (.nop, []) := by decide
theorem test_decode_lda : decode [0b00000001#8, 0b00010100#8] = .ok (.lda 20, []) := by decide
theorem test_decode_add : decode [0b00000010#8, 0b00010101#8] = .ok (.add 21, []) := by decide
theorem test_decode_sub : decode [0b00000011#8, 0b00001010#8] = .ok (.sub 10, []) := by decide
theorem test_decode_sta : decode [0b00000100#8, 0b00010110#8] = .ok (.sta 22, []) := by decide
theorem test_decode_ldi : decode [0b00000101#8, 0b00000111#8] = .ok (.ldi 7, []) := by decide
theorem test_decode_jmp : decode [0b00000110#8, 0b00000110#8] = .ok (.jmp 6, []) := by decide
theorem test_decode_jc : decode [0b00000111#8, 0b00010101#8] = .ok (.jc 21, []) := by decide
theorem test_decode_jz : decode [0b00001000#8, 0b00001101#8] = .ok (.jz 13, []) := by decide
theorem test_decode_out : decode [0b00001001#8] = .ok (.out, []) := by decide
theorem test_decode_hlt : decode [0b00001111#8] = .ok (.hlt, []) := by decide
theorem test_decode_undefined : decode [0b00011111#8, 0b00000001#8] = .ok (.undefined 0x1F, [1]) := by decide
theorem test_decode_rejects_no_bytes : decode [] = .error .noOpcodeByte := by decide
theorem test_decode_rejects_a_cut_instruction : decode [0x01] = .error (.noOperandByte 0x01) := by decide

/-- The table's numbering: the second byte is bits 15..8, and bits from `nbits` up are 0. -/
theorem test_table_words :
    decodeTableWord 16 0x1401 = some (.lda 20) ∧ decodeTableWord 8 0x01 = some (.lda 0) ∧
      decodeTableWord 8 0x0F = some .hlt ∧ decodeTableWord 8 0xFF = some (.undefined 0xFF) := by decide

/-! ### One step on a small state -/

/-- A state with `code` in `IM` from `pc` up, `data` in `DM`, and the accumulator and flags given. -/
def machine (pc : Byte) (code : List Byte) (data : Memory) (a : Byte) (z c : Bool) : State :=
  { State.reset with pc := pc, im := Memory.writeBytes [] pc.toNat code, dm := data, a := a, z := z, c := c }

/-- What `f` shows of the state after one step. -/
def afterStep {α : Type} (s : State) (f : State → α) : Option α :=
  match step s with
  | .next t => some (f t)
  | .fault _ => none
  | .refused _ => none

/-- V1. -/
theorem test_lda_keeps_carry : afterStep (machine 0 [0x01, 0x14] [(20, 6)] 0 true true)
    (fun t => (t.a, t.z, t.c, t.pc, t.ir)) = some (6, false, true, 2, 0x01) := by decide

/-- V2. -/
theorem test_lda_of_zero : afterStep (machine 0 [0x01, 0x05] [] 9 false false)
    (fun t => (t.a, t.z, t.pc, t.currentDataAddress)) = some (0, true, 2, some 5) := by decide

/-- V3. -/
theorem test_sta_stores : afterStep (machine 0 [0x04, 0x16] [] 13 false false)
    (fun t => (t.dm, t.a, t.z, t.pc)) = some ([(22, 13)], 13, false, 2) := by decide

/-- V4, over a byte that is not 0: the entry goes, and `Z` is not set. -/
theorem test_sta_of_zero : afterStep (machine 0 [0x04, 0xFF] [(255, 7)] 0 false false)
    (fun t => (t.dm, t.z, t.c)) = some ([], false, false) := by decide

/-- V5. -/
theorem test_ldi_zero : afterStep (machine 0 [0x05, 0x00] [] 5 false true)
    (fun t => (t.a, t.z, t.c)) = some (0, true, true) := by decide

/-- V50: the operand of a two-byte instruction at 255 is `IM[0]`. -/
theorem test_ldi_at_the_end_wraps :
    afterStep { State.reset with pc := 255, im := [(0, 0x2A), (255, 0x05)], z := true }
      (fun t => (t.a, t.z, t.pc, t.ir, t.seqOvf)) = some (42, false, 1, 0x05, true) := by decide

/-- V11. -/
theorem test_add_wraps : afterStep (machine 0 [0x02, 0x10] [(16, 1)] 255 false false)
    (fun t => (t.a, t.c, t.z, t.dm)) = some (0, true, true, [(16, 1)]) := by decide

/-- V15: the carry coming in is not added, and is cleared. -/
theorem test_add_ignores_carry_in : afterStep (machine 0 [0x02, 0x10] [(16, 1)] 1 false true)
    (fun t => (t.a, t.c, t.z)) = some (2, false, false) := by decide

/-- V22: the carry after SUB is a borrow. -/
theorem test_sub_borrows : afterStep (machine 0 [0x03, 0x10] [(16, 3)] 2 false false)
    (fun t => (t.a, t.c, t.z)) = some (255, true, false) := by decide

/-- V21: the borrow coming in is not subtracted, and is cleared. -/
theorem test_sub_ignores_borrow_in : afterStep (machine 0 [0x03, 0x10] [(16, 3)] 5 false true)
    (fun t => (t.a, t.c, t.z)) = some (2, false, false) := by decide

/-- V30. -/
theorem test_jmp : afterStep (machine 11 [0x06, 0x06] [] 0 true true)
    (fun t => (t.pc, t.z, t.c, t.seqOvf)) = some (6, true, true, false) := by decide

/-- V37: a jump from 254 reports no sequential overflow. -/
theorem test_jmp_at_the_end : afterStep (machine 254 [0x06, 0x10] [] 0 false false)
    (fun t => (t.pc, t.seqOvf)) = some (16, false) := by decide

/-- V33: JC reads `C`, not `Z`. -/
theorem test_jc_not_taken : afterStep (machine 18 [0x07, 0x15] [] 0 true false)
    (fun t => (t.pc, t.seqOvf)) = some (20, false) := by decide

/-- V36. -/
theorem test_jc_not_taken_at_the_end : afterStep (machine 254 [0x07, 0x10] [] 0 false false)
    (fun t => (t.pc, t.seqOvf)) = some (0, true) := by decide

/-- V35: JZ reads `Z`, not `C`. -/
theorem test_jz_not_taken : afterStep (machine 9 [0x08, 0x0D] [] 0 false true)
    (fun t => t.pc) = some 11 := by decide

/-- V38: taken, with its operand from `IM[0]`. -/
theorem test_jz_taken_at_the_end :
    afterStep { State.reset with pc := 255, im := [(0, 0x20), (255, 0x08)], z := true }
      (fun t => (t.pc, t.seqOvf)) = some (32, false) := by decide

/-- V41. -/
theorem test_nop_at_the_end : afterStep (machine 255 [] [] 0 false false)
    (fun t => (t.pc, t.signal, t.seqOvf)) = some (0, .cont, true) := by decide

/-- V43: OUT of 0 does not set `Z`. -/
theorem test_out : afterStep { machine 0 [0x09] [] 0 false false with out := 7 }
    (fun t => (t.out, t.z, t.pc)) = some (0, false, 1) := by decide

/-- V44. -/
theorem test_hlt : afterStep (machine 15 [0x0F] [] 0 false false)
    (fun t => (t.pc, t.ir, t.signal, t.seqOvf)) = some (16, 0x0F, .halt, false) := by decide

/-- V45. -/
theorem test_hlt_at_the_end : afterStep (machine 255 [0x0F] [] 0 false false)
    (fun t => (t.pc, t.signal, t.seqOvf)) = some (0, .halt, true) := by decide

/-- V47: 0x1F is not HLT. -/
theorem test_undefined_is_not_hlt : afterStep (machine 0 [0x1F] [] 5 false false)
    (fun t => (t.pc, t.ir, t.a, t.signal)) = some (1, 0x1F, 5, .cont) := by decide

/-- V48: 0x11 takes no operand. -/
theorem test_undefined_is_not_lda : afterStep (machine 0 [0x11, 0x10] [(16, 9)] 5 false false)
    (fun t => (t.pc, t.a)) = some (1, 5) := by decide

/-- R87: `F ∪ {alu} ∪ U(STA)`, and `F` alone after an undefined byte. -/
theorem test_active_units :
    afterStep (machine 0 [0x04, 0x16] [] 0 false false) (fun t => t.activeUnits) =
        some [.alu, .instructionMemory, .dataMemory, .registerA, .instructionRegister, .programCounter] ∧
      afterStep (machine 0 [0x0A] [] 0 false false) (fun t => t.activeUnits) =
        some [.instructionMemory, .instructionRegister, .programCounter] := by decide

/-- A word placed by `withFetchWord` is the first instruction after reset. -/
theorem test_withFetchWord :
    afterStep (State.reset.withFetchWord 16 0x0605) (fun t => (t.a, t.pc)) = some (6, 2) ∧
      afterStep (State.reset.withFetchWord 8 0x06) (fun t => (t.pc, t.ir)) = some (0, 0x06) := by decide

/-! ### The host's operations -/

/-- V81. -/
theorem test_load_clears_and_places :
    (hostLoad [0x05, 0x01, 0x0F] [] { machine 16 [] [(20, 6)] 13 false true with out := 13 }).toOption.map
      (fun t => ((t.im, t.dm), (t.a, t.out, t.pc))) =
        some (([(0, 5), (1, 1), (2, 15)], []), (0, 0, 0)) := by decide

/-- V82. -/
theorem test_load_too_long : hostLoad (List.replicate 257 0) [] State.reset = .error (.imageTooLong 257) := by
  rw [hostLoad, List.length_replicate]
  rfl

/-- V51's last step: a run from 255 stops there under `StopAtEnd` only. -/
theorem test_tick_at_the_end :
    (hostTick .stopAtEnd (machine 255 [] [] 0 false false).hostRun).toOption.map (fun t => (t.pc, t.host.running)) =
        some (0, false) ∧
      (hostTick .wrap (machine 255 [] [] 0 false false).hostRun).toOption.map (fun t => (t.pc, t.host.running)) =
        some (0, true) := by decide

/-- R102: the map's entry for `PC`, and line 0 for an address that is not mapped. -/
theorem test_currentSourceLine :
    currentSourceLine { machine 2 [] [] 0 false false with host := { State.reset.host with sourceMap := [(2, 5)] } } = 5 ∧
      currentSourceLine { State.reset with host := { State.reset.host with sourceMap := [(2, 5)] } } = 0 :=
  ⟨rfl, rfl⟩

/-! ### The assembler -/

/-- E6 and P1: the source's own program. -/
theorem test_assemble_add_program :
    (Assembler.assemble "LDI 6\nSTA 20\nLDI 7\nSTA 21\nLDA 20\nADD 21\nSTA 22\nOUT\nHLT").toOption.map (·.image) =
      some [0x05, 0x06, 0x04, 0x14, 0x05, 0x07, 0x04, 0x15, 0x01, 0x14, 0x02, 0x15, 0x04, 0x16, 0x09, 0x0F] := by
  decide

/-- E7: a forward reference. -/
theorem test_assemble_forward_label :
    (Assembler.assemble "JMP LOOP\nNOP\nLOOP: HLT").toOption =
      some ⟨[0x06, 0x03, 0x00, 0x0F], [(0, 0), (2, 1), (3, 2)]⟩ := by decide

/-- V60, V62, V63, V64. -/
theorem test_assemble_one_line :
    (Assembler.assemble "lda 20").toOption.map (·.image) = some [0x01, 0x14] ∧
      (Assembler.assemble "OUT ; show A").toOption.map (·.image) = some [0x09] ∧
      (Assembler.assemble "OUT 5").toOption.map (·.image) = some [0x09] ∧
      (Assembler.assemble "LDI 300").toOption.map (·.image) = some [0x05, 0x2C] := by decide

/-- V61, V65. -/
theorem test_assemble_comment_and_label :
    (Assembler.assemble "; only a comment\nHLT").toOption = some ⟨[0x0F], [(0, 1)]⟩ ∧
      (Assembler.assemble "start:\nJMP start").toOption.map (·.image) = some [0x06, 0x00] := by decide

/-- The reasons of the errors of a text. -/
def reasons (text : String) : List Assembler.Reason :=
  match Assembler.assemble text with
  | .ok _ => []
  | .error es => es.map (·.reason)

/-- V66, V67, V68, V69, V70, V72. -/
theorem test_assemble_errors :
    reasons "JMP Loop\nloop: HLT" = [.unresolvedOperand "Loop".toList] ∧
      reasons "FOO 3" = [.unknownMnemonic "FOO".toList] ∧
      reasons "LDA" = [.missingOperand .lda] ∧
      reasons "LDA 1 2" = [.extraToken "2".toList] ∧
      reasons "LDI -1" = [.unresolvedOperand "-1".toList] ∧
      reasons "LDI 0x10" = [.unresolvedOperand "0x10".toList] ∧
      reasons "a:\na: HLT" = [.duplicateLabel "a".toList] := by decide

/-- R99, R100: every error of a line is reported, with its line and token. -/
theorem test_assemble_extra_token_and_unresolved_operand :
    Assembler.assemble "NOP\nLDA foo bar" =
      .error [⟨1, .extraToken "bar".toList⟩, ⟨1, .unresolvedOperand "foo".toList⟩] := by decide

/-- R101 and log 8: the line of the first instruction that passes address 256, here one whose operand is missing. -/
theorem test_overflow_line :
    Assembler.lengthErrors (({ Assembler.Pass1.start with address := 255 } : Assembler.Pass1).addLine (7, "LDA".toList) |>.addLine (8, "NOP".toList)) =
      [⟨7, .imageTooLong 258⟩] := by decide

/-- R104. -/
theorem test_disassemble :
    Assembler.disassembleOpcode 0x0F = some "HLT" ∧ Assembler.disassembleOpcode 0x0A = none := by decide

/-! ### Witnesses: states and operands that meet each statement's hypotheses -/

/-- A store to the last address, over a byte that is not 0. -/
def storeThenUse (use : Byte) : State := machine 0 [0x04, 0xFF, use, 0xFF] [(255, 9)] 7 false false

theorem witness_NopOnlyAdvancesPc : Memory.read (machine 255 [0x00] [] 0 false false).im (255 : Byte).toNat = 0x00 := by decide

theorem witness_StaStoresAccumulator : Memory.wf (storeThenUse 0x01).dm = true := by decide

theorem witness_UndefinedByteIsOneByteNoOp : ∀ op ∈ [(10 : Byte), 14, 16, 255],
    (10 ≤ op.toNat ∧ op.toNat ≤ 14) ∨ 16 ≤ op.toNat := by decide

theorem witness_DecodeAfterEncodeIsIdentity :
    (Instr.jz 255).wellFormed = true ∧ (Instr.undefined 0x10).wellFormed = true := by decide

theorem witness_EncodeAfterDecodeIsIdentity : decode [0x08, 0xFF, 0x00] = .ok (.jz 255, [0x00]) := by decide

theorem witness_FirstByteDecidesLength :
    decode [0x00, 0x01] = .ok (.nop, [0x01]) ∧ decode [0x01, 0x00] = .ok (.lda 0, []) ∧
      decode [0x08, 0x00] = .ok (.jz 0, []) ∧ decode [0x09, 0x00] = .ok (.out, [0x00]) := by decide

theorem witness_UndefinedOpcodesAreTheOtherBytes :
    Mnemonic.ofOpcode (Memory.read (machine 255 [0xFF] [] 0 false false).im (255 : Byte).toNat) = none := by decide

theorem witness_StepRunsTheDecodedInstruction :
    decode [Memory.read (storeThenUse 0x01).im (0 : Byte).toNat, Memory.read (storeThenUse 0x01).im (1 : Byte).toNat] =
      .ok (.sta 0xFF, []) := by decide

/-- With its operand at the other end of `IM`. -/
theorem witness_StepRunsTheStoredInstruction :
    (Instr.ldi 0x2A).wellFormed = true ∧
      ({ State.reset with pc := 255, im := [(0, 0x2A), (255, 0x05)] } : State).Holds (.ldi 0x2A) :=
  ⟨rfl, rfl, rfl⟩

theorem witness_StepLatchesTheFetchedOpcode :
    ∃ t, step (machine 255 [0xFF] [] 0 false false) = .next t ∧ t.ir = 0xFF := ⟨_, rfl, rfl⟩

/-- Each branch of the statement: a jump, a taken and a not taken JC and JZ, a two-byte and a one-byte advance. -/
theorem witness_StepSetsPc :
    (∃ t, step (machine 254 [0x06, 0x10] [] 0 false false) = .next t ∧ t.pc = 0x10) ∧
    (∃ t, step (machine 254 [0x07, 0x10] [] 0 false true) = .next t ∧ t.pc = 0x10) ∧
    (∃ t, step (machine 254 [0x08, 0x10] [] 0 true false) = .next t ∧ t.pc = 0x10) ∧
    (∃ t, step (machine 254 [0x08, 0x10] [] 0 false true) = .next t ∧ t.pc = 0) ∧
    (∃ t, step (machine 255 [0x09] [] 0 false false) = .next t ∧ t.pc = 0) :=
  ⟨⟨_, rfl, rfl⟩, ⟨_, rfl, rfl⟩, ⟨_, rfl, rfl⟩, ⟨_, rfl, rfl⟩, ⟨_, rfl, rfl⟩⟩

theorem witness_HaltSignalExactlyAtHlt :
    (∃ t, step (machine 255 [0x0F] [] 0 false false) = .next t ∧ t.signal = .halt) ∧
    (∃ t, step (machine 255 [0x1F] [] 0 false false) = .next t ∧ t.signal = .cont) :=
  ⟨⟨_, rfl, rfl⟩, ⟨_, rfl, rfl⟩⟩

theorem witness_SeqOvfExactlyAtSequentialWrap :
    (∃ t, step (machine 254 [0x07, 0x10] [] 0 false false) = .next t ∧ t.seqOvf = true) ∧
    (∃ t, step (machine 253 [0x07, 0x10] [] 0 false false) = .next t ∧ t.seqOvf = false) ∧
    (∃ t, step (machine 254 [0x07, 0x10] [] 0 false true) = .next t ∧ t.seqOvf = false) :=
  ⟨⟨_, rfl, rfl⟩, ⟨_, rfl, rfl⟩, ⟨_, rfl, rfl⟩⟩

theorem witness_StepIgnoresTheScheduler : ∃ t, step (storeThenUse 0x01).hostRun = .next t ∧ t.host.running = true :=
  ⟨_, rfl, rfl⟩

/-- Two states that differ in their presentation-only state alone. -/
theorem witness_PresentationStateHasNoInfluence :
    ∃ s s' t t' : State, s.arch = s'.arch ∧ s.activeUnits ≠ s'.activeUnits ∧ s.currentDataAddress ≠ s'.currentDataAddress ∧
      step s = .next t ∧ step s' = .next t' :=
  ⟨storeThenUse 0x01, { storeThenUse 0x01 with activeUnits := [], currentDataAddress := some 3 }, _, _, rfl,
    by decide, by decide, rfl, rfl⟩

theorem witness_FlagsChangeOnlyByTheirWriters :
    (∃ t, exec (.lda 16) (machine 0 [] [] 0 false true) = .next t ∧ t.c = true ∧ t.z = true) ∧
    (∃ t, exec .out (machine 0 [] [] 0 false true) = .next t ∧ t.c = true ∧ t.z = false) :=
  ⟨⟨_, rfl, rfl, rfl⟩, ⟨_, rfl, rfl, rfl⟩⟩

theorem witness_ZeroFlagTellsTheNewAccumulator :
    (Instr.sub 16).mnemonic? ∈ [some Mnemonic.lda, some .add, some .sub, some .ldi] ∧
      ∃ t, exec (.sub 16) (machine 0 [] [(16, 5)] 5 false true) = .next t ∧ t.z = true ∧ t.a = 0 :=
  ⟨by decide, _, rfl, by decide, by decide⟩

/-- Each clause with a change: `A`, `OUT`, and a byte of `DM`. -/
theorem witness_RegistersChangeOnlyByTheirWriters :
    (∃ t, step (machine 0 [0x05, 0x07] [] 5 false false) = .next t ∧ t.a ≠ 5) ∧
    (∃ t, step (machine 0 [0x09] [] 5 false false) = .next t ∧ t.out ≠ 0) ∧
    (∃ t, step (storeThenUse 0x01) = .next t ∧
      Memory.read t.dm (255 : Byte).toNat ≠ Memory.read (storeThenUse 0x01).dm (255 : Byte).toNat) :=
  ⟨⟨_, rfl, by decide⟩, ⟨_, rfl, by decide⟩, ⟨_, rfl, by decide⟩⟩

theorem witness_StoresAreNeverFetched :
    (∃ t, step (storeThenUse 0x01) = .next t) ∧
    (∃ t, hostApply .wrap .reset (storeThenUse 0x01) = .ok t ∧ t.im ≠ (storeThenUse 0x01).im) ∧
    (∃ t, hostApply .wrap (.load [0x0F] []) State.reset = .ok t ∧ t.im ≠ State.reset.im) :=
  ⟨⟨_, rfl⟩, ⟨_, rfl, by decide⟩, ⟨_, rfl, by decide⟩⟩

theorem witness_ArithmeticLaws :
    ∃ t u, exec (.add 16) (machine 0 [] [(16, 1)] 255 false false) = .next t ∧
      exec (.sub 16) (machine 0 [] [(16, 1)] 255 false false) = .next u := ⟨_, _, rfl, rfl⟩

/-- Each clause: LDA, ADD and SUB after the store. -/
theorem witness_LoadAfterStoreSeesTheStoredByte :
    Memory.wf (storeThenUse 0x01).dm = true ∧
    (∃ t u, (storeThenUse 0x01).Holds (.sta 0xFF) ∧ step (storeThenUse 0x01) = .next t ∧ step t = .next u ∧
      t.Holds (.lda 0xFF)) ∧
    (∃ t u, (storeThenUse 0x02).Holds (.sta 0xFF) ∧ step (storeThenUse 0x02) = .next t ∧ step t = .next u ∧
      t.Holds (.add 0xFF)) ∧
    (∃ t u, (storeThenUse 0x03).Holds (.sta 0xFF) ∧ step (storeThenUse 0x03) = .next t ∧ step t = .next u ∧
      t.Holds (.sub 0xFF)) :=
  ⟨by decide, ⟨_, _, ⟨rfl, rfl⟩, rfl, rfl, rfl, rfl⟩, ⟨_, _, ⟨rfl, rfl⟩, rfl, rfl, rfl, rfl⟩,
    ⟨_, _, ⟨rfl, rfl⟩, rfl, rfl, rfl, rfl⟩⟩

/-- A flag-writing instruction and then a conditional jump to 0x15. -/
def writerThenJump (writer jump : Byte) : State := machine 0 [writer, 0x10, jump, 0x15] [(16, 200)] 200 false false

/-- Each clause: JC after ADD and SUB, JZ after each of the four. -/
theorem witness_JumpAfterFlagWriterReadsItsFlags :
    (∃ t u, step (writerThenJump 0x02 0x07) = .next t ∧ step t = .next u ∧
      (writerThenJump 0x02 0x07).Holds (.add 0x10) ∧ t.Holds (.jc 0x15) ∧ u.pc = 0x15) ∧
    (∃ t u, step (writerThenJump 0x03 0x07) = .next t ∧ step t = .next u ∧
      (writerThenJump 0x03 0x07).Holds (.sub 0x10) ∧ t.Holds (.jc 0x15) ∧ u.pc = 4) ∧
    (∃ t u, step (writerThenJump 0x02 0x08) = .next t ∧ step t = .next u ∧
      (writerThenJump 0x02 0x08).Holds (.add 0x10) ∧ t.Holds (.jz 0x15) ∧ u.pc = 4) ∧
    (∃ t u, step (writerThenJump 0x03 0x08) = .next t ∧ step t = .next u ∧
      (writerThenJump 0x03 0x08).Holds (.sub 0x10) ∧ t.Holds (.jz 0x15) ∧ u.pc = 0x15) ∧
    (∃ t u, step (writerThenJump 0x01 0x08) = .next t ∧ step t = .next u ∧
      (writerThenJump 0x01 0x08).Holds (.lda 0x10) ∧ t.Holds (.jz 0x15) ∧ u.pc = 4) ∧
    (∃ t u, step (writerThenJump 0x05 0x08) = .next t ∧ step t = .next u ∧
      (writerThenJump 0x05 0x08).Holds (.ldi 0x10) ∧ t.Holds (.jz 0x15) ∧ u.pc = 4) :=
  ⟨⟨_, _, rfl, rfl, ⟨rfl, rfl⟩, ⟨rfl, rfl⟩, rfl⟩, ⟨_, _, rfl, rfl, ⟨rfl, rfl⟩, ⟨rfl, rfl⟩, rfl⟩,
    ⟨_, _, rfl, rfl, ⟨rfl, rfl⟩, ⟨rfl, rfl⟩, rfl⟩, ⟨_, _, rfl, rfl, ⟨rfl, rfl⟩, ⟨rfl, rfl⟩, rfl⟩,
    ⟨_, _, rfl, rfl, ⟨rfl, rfl⟩, ⟨rfl, rfl⟩, rfl⟩, ⟨_, _, rfl, rfl, ⟨rfl, rfl⟩, ⟨rfl, rfl⟩, rfl⟩⟩

theorem witness_LoadPlacesTheImageAfterReset :
    (List.replicate 256 (0xFF : Byte)).length ≤ 256 ∧ ([] : List Byte).length ≤ 256 :=
  ⟨List.length_replicate.le, Nat.zero_le _⟩

theorem witness_LoadRefusesAnImageTooLong : 256 < (List.replicate 257 (0 : Byte)).length := by
  rw [List.length_replicate]
  decide

theorem witness_HostStepOutsideARunOnly :
    State.reset.host.running = false ∧ State.reset.hostRun.host.running = true := ⟨rfl, rfl⟩

/-- A run that goes on, one that HLT ends, and one that `StopAtEnd` ends. -/
theorem witness_TickIsOneStepAndMayEndTheRun :
    State.reset.hostRun.host.running = true ∧
    (∃ t u, step State.reset.hostRun = .next t ∧ hostApply .wrap .tick State.reset.hostRun = .ok u ∧
      u.host.running = true) ∧
    (∃ u, hostApply .wrap .tick (machine 0 [0x0F] [] 0 false false).hostRun = .ok u ∧ u.host.running = false) ∧
    (∃ u, hostApply .stopAtEnd .tick (machine 255 [] [] 0 false false).hostRun = .ok u ∧ u.host.running = false) :=
  ⟨rfl, ⟨_, _, rfl, rfl, rfl⟩, ⟨_, rfl, rfl⟩, ⟨_, rfl, rfl⟩⟩

theorem witness_PolicyNeverChangesTheCore :
    ∃ t u, hostApply .wrap .tick (machine 255 [] [] 0 false false).hostRun = .ok t ∧
      hostApply .stopAtEnd .tick (machine 255 [] [] 0 false false).hostRun = .ok u ∧ t.host ≠ u.host :=
  ⟨_, _, rfl, rfl, fun h => absurd (congrArg Scheduler.running h) (by decide)⟩

theorem witness_ClockSpeedNeverChangesAStep : ∃ t, step (storeThenUse 0x01) = .next t := ⟨_, rfl⟩

/-- A NOP and then an HLT at 255, with a change of the clock speed between the two ticks. -/
theorem witness_CompletedRunStopsJustPastAnHlt :
    ∃ t, RunsToCompletion .wrap { State.reset with pc := 254, im := [(255, 0x0F)] } t ∧
      t.host.clockRateHz = .rational ⟨2, by decide⟩ :=
  ⟨_, ⟨_, .operation (.setClockSpeed (.rational ⟨2, by decide⟩)) (.operation .tick .start rfl rfl) rfl rfl, rfl, rfl, rfl⟩,
    rfl⟩

/-- A tick that goes on, one that HLT ends, one that `StopAtEnd` ends, and `stop()`. -/
theorem witness_RunEndsExactlyAtItsThreeEnds :
    State.reset.hostRun.host.running = true ∧
    (∃ t, hostApply .stopAtEnd .tick State.reset.hostRun = .ok t ∧ t.host.running = true) ∧
    (∃ t, hostApply .wrap .tick (machine 0 [0x0F] [] 0 false false).hostRun = .ok t ∧ t.host.running = false) ∧
    (∃ t, hostApply .stopAtEnd .tick (machine 255 [] [] 0 false false).hostRun = .ok t ∧ t.host.running = false) ∧
    (∃ t, hostApply .wrap .tick (machine 255 [] [] 0 false false).hostRun = .ok t ∧ t.host.running = true) ∧
    (∃ t, hostApply .wrap .stop State.reset.hostRun = .ok t ∧ t.host.running = false) :=
  ⟨rfl, ⟨_, rfl, rfl⟩, ⟨_, rfl, rfl⟩, ⟨_, rfl, rfl⟩, ⟨_, rfl, rfl⟩, ⟨_, rfl, rfl⟩⟩

theorem witness_StepKeepsMemoriesCanonical :
    (storeThenUse 0x01).MemInv ∧ ∃ t, step (storeThenUse 0x01) = .next t :=
  ⟨⟨by decide, by decide⟩, _, rfl⟩

theorem witness_HostOperationsKeepTheInvariants :
    (storeThenUse 0x01).hostRun.MemInv ∧ (storeThenUse 0x01).hostRun.HostInv ∧
      ∃ t, hostApply .wrap .tick (storeThenUse 0x01).hostRun = .ok t :=
  ⟨⟨by decide, by decide⟩, ⟨fun _ => rfl, fun _ => rfl⟩, _, rfl⟩

theorem witness_RegisterBIsUnusedAndZero :
    (∃ t, step { storeThenUse 0x01 with b := 9 } = .next t ∧ t.b = 9) ∧ ∃ t, HostReachable .wrap t ∧ t.im = [(0, 0x09)] :=
  ⟨⟨_, rfl, rfl⟩, _, .operation (.load [0x09] []) (.construction (.rational ⟨2, by decide⟩)) rfl, by decide⟩

/-- STA stands at `PC`, and the edge has the inputs `step_en` and `rst`. -/
def edgeAtStore (stepEn rst : Bool) : Except EdgeRefusal State × Bool :=
  (clockEdge ⟨rst, stepEn, false, 0, 0⟩ (storeThenUse 0x01), dmemWe ⟨rst, stepEn, false, 0, 0⟩ (storeThenUse 0x01))

/-- Each clause: an edge that stores, one without `step_en`, and one whose step does not store. -/
theorem witness_DataPortTellsTheStore :
    Memory.wf (storeThenUse 0x01).dm = true ∧
    (∃ t, edgeAtStore true false = (.ok t, true) ∧ t.dm = [(255, 7)]) ∧
    (∃ t, edgeAtStore false false = (.ok t, false)) ∧
    (∃ t, clockEdge ⟨false, true, false, 0, 0⟩ State.reset = .ok t ∧ dmemWe ⟨false, true, false, 0, 0⟩ State.reset = false) :=
  ⟨by decide, ⟨_, rfl, rfl⟩, ⟨_, rfl⟩, ⟨_, rfl, rfl⟩⟩

/-- R39: with `step_en` 0 or `rst` 1 no step runs, so `dmem_we` is 0 though STA stands at `PC`. -/
theorem test_dmemWe_needs_a_step :
    (edgeAtStore true false).2 = true ∧ (edgeAtStore false false).2 = false ∧ (edgeAtStore true true).2 = false := by
  decide

theorem witness_LoadThroughThePorts :
    (List.replicate 256 (0xFF : Byte)).length ≤ 256 ∧ (⟨true, true, true, 3, 9⟩ : EdgeInputs).rst = true :=
  ⟨List.length_replicate.le, rfl⟩

theorem witness_AssembledImageFits :
    Assembler.assemble "loop: JMP loop" = .ok ⟨[0x06, 0x00], [(0, 0)]⟩ := by decide

theorem witness_AssembledImageIsInstructions :
    Assembler.assemble "OUT\nHLT" = .ok ⟨[0x09, 0x0F], [(0, 0), (1, 1)]⟩ := by decide

theorem witness_FailedAssemblyLoadsNothing :
    Assembler.assemble "NOP\nFOO 3" = .error [⟨1, .unknownMnemonic "FOO".toList⟩] := by decide

theorem witness_UnresolvedOperandIsReported :
    (1, "a: LDA foo bar".toList) ∈ Assembler.numberFrom 0 (Assembler.splitLines "NOP\na: LDA foo bar".toList) ∧
    Assembler.instructionTokens "a: LDA foo bar".toList = ["LDA".toList, "foo".toList, "bar".toList] ∧
    Assembler.mnemonicOfToken "LDA".toList = some .lda ∧ Mnemonic.lda.operandCount = 1 ∧
    Assembler.isDecimal "foo".toList = false ∧
    (Assembler.pass1 "NOP\na: LDA foo bar".toList).labels.lookup "foo".toList = none := by decide

theorem witness_DisassemblyRecoversTheMnemonic :
    (Instr.ldi 255).wellFormed = true ∧ (Instr.undefined 0xFF).wellFormed = true := by decide

end Sys2Proof.Tests
end

section
/-! The state's rules (10_state.md): who writes the flags (R29), and that `B` is unused and stays 0 (R21). -/

namespace Sys2Proof.Machine

/-! ### The flags after an instruction -/

/-- `C` after an instruction: the carry of ADD, the borrow of SUB, and as it was after every other (R28, R29). -/
def carryAfter (i : Instr) (s : State) : Bool :=
  match i with
  | .add n => addCarry s.a (directOperand n s)
  | .sub n => subBorrow s.a (directOperand n s)
  | _ => s.c

/-- `Z` after an instruction: whether the byte that LDA, ADD, SUB or LDI writes to `A` is 0, and as it was after every
other (R27, R29). -/
def zeroAfter (i : Instr) (s : State) : Bool :=
  match i with
  | .lda n => decide (directOperand n s = 0)
  | .add n => decide (addResult s.a (directOperand n s) = 0)
  | .sub n => decide (subResult s.a (directOperand n s) = 0)
  | .ldi n => decide (immediateOperand n = 0)
  | _ => s.z

theorem exec_c {i : Instr} {s t : State} (h : exec i s = .next t) : t.c = carryAfter i s := by
  cases i <;> cases h <;> simp [carryAfter]

theorem exec_z {i : Instr} {s t : State} (h : exec i s = .next t) : t.z = zeroAfter i s := by
  cases i <;> cases h <;> simp [zeroAfter]

theorem carryAfter_of_not_writer {i : Instr} (s : State) (hadd : i.mnemonic? ≠ some .add)
    (hsub : i.mnemonic? ≠ some .sub) : carryAfter i s = s.c := by
  cases i with
  | add n => exact absurd rfl hadd
  | sub n => exact absurd rfl hsub
  | _ => rfl

theorem zeroAfter_of_not_writer {i : Instr} (s : State) (hlda : i.mnemonic? ≠ some .lda)
    (hadd : i.mnemonic? ≠ some .add) (hsub : i.mnemonic? ≠ some .sub) (hldi : i.mnemonic? ≠ some .ldi) :
    zeroAfter i s = s.z := by
  cases i with
  | lda n => exact absurd rfl hlda
  | add n => exact absurd rfl hadd
  | sub n => exact absurd rfl hsub
  | ldi n => exact absurd rfl hldi
  | _ => rfl

/-- Settles O27: the flag after an instruction is the old one but for the writers that R29 lists. -/
theorem flagsChangeOnlyByTheirWriters : Obligations.FlagsChangeOnlyByTheirWriters := by
  intro i s t h
  exact ⟨fun hadd hsub => (exec_c h).trans (carryAfter_of_not_writer s hadd hsub),
    fun hlda hadd hsub hldi => (exec_z h).trans (zeroAfter_of_not_writer s hlda hadd hsub hldi)⟩

/-! ### Register `B` -/

theorem State.jumpIf_with_b (j : Bool) (n v : Byte) (s : State) :
    ({ s with b := v } : State).jumpIf j n = { s.jumpIf j n with b := v } := by
  cases j <;> rfl

/-- No meaning reads `B`: on a state with another value in it, every meaning answers the same but for `B` (R21). -/
theorem exec_with_b {i : Instr} {s t : State} (v : Byte) (h : exec i s = .next t) :
    exec i { s with b := v } = .next { t with b := v } := by
  cases i with
  | jc n => cases h; exact congrArg Host.Outcome.next ((s.enter (.jc n)).jumpIf_with_b s.c (jumpTarget n) v)
  | jz n => cases h; exact congrArg Host.Outcome.next ((s.enter (.jz n)).jumpIf_with_b s.z (jumpTarget n) v)
  | _ => cases h; rfl

/-- The fetch reads only `PC` and `IM`, so a step reads `B` no more than the meaning it runs (R80). -/
theorem step_with_b {s t : State} (v : Byte) (h : step s = .next t) :
    step { s with b := v } = .next { t with b := v } :=
  exec_with_b (i := s.fetchInstr) (s := s.latchIr) v h

theorem State.hostStop_b (s : State) : s.hostStop.b = s.b := (congrArg State.b s.hostStop_core :)

theorem State.hostRun_b (s : State) : s.hostRun.b = s.b := (congrArg State.b s.hostRun_core.2 :)

/-- A tick keeps `B`: it is one step, and then at most `stop()` (R217). -/
theorem hostTick_b {policy : PcEndPolicy} {s t : State} (h : hostTick policy s = .ok t) : t.b = s.b := by
  obtain ⟨-, u, hu, rfl⟩ := hostTick_ok h
  rw [← (step_keeps hu).1]
  split
  · exact u.hostStop_b
  · rfl

/-- `reset` and the loads clear `B` (R210, R212); every other operation of the host keeps it (R21). -/
theorem hostApply_b {policy : PcEndPolicy} {op : HostOp} {s t : State} (h : hostApply policy op s = .ok t) :
    t.b = 0 ∨ t.b = s.b := by
  cases op with
  | reset => cases h; exact .inl rfl
  | load image sourceMap => obtain ⟨-, rfl⟩ := hostLoad_ok h; exact .inl rfl
  | assembleLoad text => obtain ⟨r, -, -, rfl⟩ := hostAssembleLoad_ok h; exact .inl rfl
  | step => exact .inr (step_keeps (hostStep_ok h).2).1
  | run => cases h; exact .inr s.hostRun_b
  | tick => exact .inr (hostTick_b h)
  | stop => cases h; exact .inr s.hostStop_b
  | setClockSpeed hz => cases h; exact .inr rfl

theorem HostReachable.b_eq_zero {policy : PcEndPolicy} {s : State} (h : HostReachable policy s) : s.b = 0 := by
  induction h with
  | construction rate => rfl
  | operation op _ happly ih => exact (hostApply_b happly).elim id fun kept => kept.trans ih

/-- Settles O47: no meaning reads or writes `B`, and by induction over the host's operations it keeps its reset value. -/
theorem registerBIsUnusedAndZero : Obligations.RegisterBIsUnusedAndZero :=
  ⟨fun _ _ v h => ⟨(step_keeps h).1, step_with_b v h⟩, fun _ _ h => h.b_eq_zero⟩

end Sys2Proof.Machine
end

section
/-! The memory rules (20_memory.md): instruction memory is written by the host's reset and load alone (R63). -/

namespace Sys2Proof.Machine

/-- A tick leaves the core as its one step left it: `stop()` at the end of a run changes the scheduler alone (R217). -/
theorem hostTick_core {policy : PcEndPolicy} {s t : State} (h : hostTick policy s = .ok t) :
    ∃ u, step s = .next u ∧ { t with host := u.host } = u := by
  obtain ⟨-, u, hu, rfl⟩ := hostTick_ok h
  refine ⟨u, hu, ?_⟩
  split
  · exact u.hostStop_core
  · rfl

theorem State.hostStop_im (s : State) : s.hostStop.im = s.im := (congrArg State.im s.hostStop_core :)

theorem State.hostRun_im (s : State) : s.hostRun.im = s.im := (congrArg State.im s.hostRun_core.2 :)

theorem hostTick_im {policy : PcEndPolicy} {s t : State} (h : hostTick policy s = .ok t) : t.im = s.im := by
  obtain ⟨u, hu, hcore⟩ := hostTick_core h
  calc t.im = u.im := (congrArg State.im hcore :)
    _ = s.im := (step_keeps hu).2.1

theorem State.hostReset_pc (s : State) : s.hostReset.pc = 0 := rfl

theorem State.loadImage_pc (image : List Byte) (sourceMap : List (Nat × Nat)) (s : State) :
    (s.loadImage image sourceMap).pc = 0 := rfl

/-- An operation of the host either keeps `IM`, or is `reset` or a load and leaves `PC` 0 (R63, R210, R212). -/
theorem hostApply_im {policy : PcEndPolicy} {op : HostOp} {s t : State} (h : hostApply policy op s = .ok t) :
    t.im = s.im ∨
      ((op = .reset ∨ (∃ image sourceMap, op = .load image sourceMap) ∨ ∃ text, op = .assembleLoad text) ∧
        t.pc = 0) := by
  cases op with
  | reset => cases h; exact .inr ⟨.inl rfl, s.hostReset_pc⟩
  | load image sourceMap =>
    obtain ⟨-, rfl⟩ := hostLoad_ok h
    exact .inr ⟨.inr (.inl ⟨image, sourceMap, rfl⟩), s.loadImage_pc image sourceMap⟩
  | assembleLoad text =>
    obtain ⟨r, -, -, rfl⟩ := hostAssembleLoad_ok h
    exact .inr ⟨.inr (.inr ⟨text, rfl⟩), s.loadImage_pc r.image r.sourceMap⟩
  | step => exact .inl (step_keeps (hostStep_ok h).2).2.1
  | run => cases h; exact .inl s.hostRun_im
  | tick => exact .inl (hostTick_im h)
  | stop => cases h; exact .inl s.hostStop_im
  | setClockSpeed hz => cases h; exact .inl rfl

/-- Settles O30: no meaning writes `IM`, and of the host's operations only those that reset the core do. -/
theorem storesAreNeverFetched : Obligations.StoresAreNeverFetched :=
  ⟨fun _ _ h => (step_keeps h).2.1, fun _ _ _ _ h changed => (hostApply_im h).resolve_left changed⟩

end Sys2Proof.Machine
end

section
/-! The encoding (30_encoding.md, sections 1 and 2): the length of an instruction (R74) and the undefined opcodes (R75). -/

namespace Sys2Proof

/-- The length in R73's opcode numbers (R74). -/
theorem lengthOfOpcode_eq (b : Byte) : lengthOfOpcode b = if 1 ≤ b.toNat ∧ b.toNat ≤ 8 then 2 else 1 := by
  revert b
  decide

theorem lengthOfOpcode_eq_two {b : Byte} (h : lengthOfOpcode b ≠ 1) : lengthOfOpcode b = 2 := by
  rw [lengthOfOpcode_eq] at h ⊢
  split at h
  · next range => exact if_pos range
  · exact absurd rfl h

/-- The decoder takes as many bytes as the first one alone decides (R74). -/
theorem decode_length {op : Byte} {bytes rest : List Byte} {i : Instr} (h : decode (op :: bytes) = .ok (i, rest)) :
    (op :: bytes).length = rest.length + lengthOfOpcode op := by
  unfold decode at h
  by_cases one : lengthOfOpcode op = 1
  · simp only [one, if_true] at h
    cases h
    rw [one, List.length_cons]
  · simp only [one, if_false] at h
    cases bytes with
    | nil => cases h
    | cons n bytes =>
      cases h
      rw [lengthOfOpcode_eq_two one, List.length_cons, List.length_cons]

/-- Settles O16: the decoder's length, with the length of an opcode in R73's numbers. -/
theorem firstByteDecidesLength : Obligations.FirstByteDecidesLength := by
  intro op bytes rest i h
  rw [decode_length h, lengthOfOpcode_eq]

theorem Mnemonic.toInstr_ne_undefined (m : Mnemonic) (n op : Byte) : m.toInstr n ≠ .undefined op := by
  cases m <;> exact Instr.noConfusion

/-- An instruction read from its bytes has the length that its first byte decides (R74). -/
theorem decodeBytes_length (b n : Byte) : (decodeBytes b n).length = lengthOfOpcode b := by
  unfold lengthOfOpcode
  cases hm : Mnemonic.ofOpcode b with
  | none => rw [decodeBytes_undefined hm]; rfl
  | some m => rw [decodeBytes_mnemonic hm, Instr.length, Mnemonic.toInstr_mnemonic?]

theorem isUndefinedByte_iff (b : Byte) :
    isUndefinedByte b = true ↔ (10 ≤ b.toNat ∧ b.toNat ≤ 14) ∨ (16 ≤ b.toNat ∧ b.toNat ≤ 255) := by
  have hb := b.isLt
  simp only [isUndefinedByte, Bool.or_eq_true, Bool.and_eq_true, decide_eq_true_eq]
  omega

/-- A byte decodes to the undefined instruction exactly where the lookup does not find it (R75). -/
theorem decodeBytes_eq_undefined_iff (op n : Byte) :
    decodeBytes op n = .undefined op ↔ isUndefinedByte op = true := by
  rw [← Mnemonic.ofOpcode_eq_none_iff]
  constructor
  · intro h
    cases hm : Mnemonic.ofOpcode op with
    | none => rfl
    | some m => exact absurd (decodeBytes_mnemonic hm n ▸ h) (m.toInstr_ne_undefined n op)
  · exact fun h => decodeBytes_undefined h n

/-- Every byte from 16 up is an undefined opcode (R75). -/
theorem ofOpcode_eq_none_of_ge {k : Nat} (hge : 16 ≤ k) (hlt : k < 256) :
    Mnemonic.ofOpcode (BitVec.ofNat 8 k) = none := by
  rw [Mnemonic.ofOpcode_eq_none_iff, isUndefinedByte_iff, BitVec.toNat_ofNat, Nat.mod_eq_of_lt hlt]
  omega

/-- R75's 245 values: 5 of the first 16 bytes, and all 240 others. -/
theorem undefinedOpcodes_count :
    ((List.range 256).filter fun k => (Mnemonic.ofOpcode (BitVec.ofNat 8 k)).isNone).length = 245 := by
  have low : ((List.range 16).filter fun k => (Mnemonic.ofOpcode (BitVec.ofNat 8 k)).isNone).length = 5 := by decide
  have high : ((List.range 240).map (16 + ·)).filter (fun k => (Mnemonic.ofOpcode (BitVec.ofNat 8 k)).isNone) =
      (List.range 240).map (16 + ·) := by
    rw [List.filter_eq_self, List.forall_mem_map]
    intro k hk
    rw [ofOpcode_eq_none_of_ge (Nat.le_add_right 16 k) (Nat.add_lt_add_left (List.mem_range.1 hk) 16)]
    rfl
  rw [List.range_add (n := 16) (m := 240), List.filter_append, high, List.length_append, low, List.length_map,
    List.length_range]

end Sys2Proof

namespace Sys2Proof.Machine

/-- The step on an undefined byte: `IR`, `PC` and what it returns, and nothing else (R75, R173). -/
theorem step_undefined_arch {s : State} (h : Mnemonic.ofOpcode (s.fetchByte s.pc) = none) :
    ∃ t, step s = .next t ∧
      t.arch = { s.arch with
        ir := s.fetchByte s.pc, pc := s.pc + 1, signal := .cont, seqOvf := passesEnd s.pc 1 } := by
  unfold step
  rw [State.fetchInstr_undefined h]
  exact ⟨_, rfl, rfl⟩

/-- The only address from which an advance by 1 passes the end is 255 (R86). -/
theorem passesEnd_one (p : Byte) : passesEnd p 1 = decide (p = 255) := by
  rw [passesEnd, decide_eq_decide]
  bv_omega

/-- Settles O17: the bytes that the lookup does not find are the 245 of R75, and a step on one runs R173's rule. -/
theorem undefinedOpcodesAreTheOtherBytes : Obligations.UndefinedOpcodesAreTheOtherBytes := by
  refine ⟨fun op n => (decodeBytes_eq_undefined_iff op n).trans (isUndefinedByte_iff op),
    undefinedOpcodes_count, fun s h => ?_⟩
  rw [← passesEnd_one]
  exact step_undefined_arch h

end Sys2Proof.Machine
end

section
/-! The step (30_encoding.md, section 3): what it leaves in `IR` and `PC`, the signals it returns, and what it does not
read (R81 to R89). -/

namespace Sys2Proof.Machine

/-! ### A next state, and `IR` -/

theorem step_next (s : State) : ∃ t, step s = .next t := exec_next s.fetchInstr s.latchIr

/-- Settles O20: a step is one meaning, and every meaning gives a next state. -/
theorem stepIsTotal : Obligations.StepIsTotal := step_next

theorem irAfter_toInstr (m : Mnemonic) (n : Byte) (s : State) : irAfter (m.toInstr n) s = s.ir := by
  cases m <;> rfl

/-- No instruction fetched writes another byte to `IR` than the fetch did: an undefined byte writes itself (R81, R173). -/
theorem step_ir {s t : State} (h : step s = .next t) : t.ir = s.fetchByte s.pc := by
  rw [exec_ir h]
  obtain ⟨m, -, hi⟩ | ⟨-, hi⟩ := s.fetch_cases <;> rw [hi]
  · exact irAfter_toInstr m _ s.latchIr
  · rfl

/-- Settles O21: the fetch writes `IR`, and no meaning writes another byte to it. -/
theorem stepLatchesTheFetchedOpcode : Obligations.StepLatchesTheFetchedOpcode := fun _ _ h => step_ir h

/-! ### The jumps that are taken -/

theorem taken_latchIr (i : Instr) (s : State) : taken i s.latchIr = taken i s := by
  cases i <;> rfl

/-- A mnemonic's jump is taken: JMP always, JC with `C` and JZ with `Z`, in R73's opcode numbers. -/
theorem taken_toInstr_iff (m : Mnemonic) (n : Byte) (s : State) :
    taken (m.toInstr n) s = true ↔
      m.opcode.toNat = 6 ∨ (m.opcode.toNat = 7 ∧ s.c = true) ∨ (m.opcode.toNat = 8 ∧ s.z = true) := by
  cases m <;> simp [taken, Mnemonic.toInstr, Mnemonic.opcode, Mnemonic.row]

/-- The jump that a step takes, in R73's opcode numbers; an undefined byte takes none (R84). -/
theorem taken_fetchInstr_iff (s : State) :
    taken s.fetchInstr s = true ↔
      (s.fetchByte s.pc).toNat = 6 ∨ ((s.fetchByte s.pc).toNat = 7 ∧ s.c = true) ∨
        ((s.fetchByte s.pc).toNat = 8 ∧ s.z = true) := by
  obtain ⟨m, hop, hi⟩ | ⟨hop, hi⟩ := s.fetch_cases <;> rw [hi]
  · rw [hop, taken_toInstr_iff]
  · rw [isUndefinedByte_iff] at hop
    simp only [taken, Bool.false_eq_true, false_iff]
    omega

/-! ### `PC` -/

theorem pcAfter_of_not_taken {i : Instr} {s : State} (h : taken i s = false) :
    pcAfter i s = s.pc + BitVec.ofNat 8 i.length := by
  cases i with
  | jmp n => cases h
  | jc n => exact if_neg (Bool.eq_false_iff.1 h)
  | jz n => exact if_neg (Bool.eq_false_iff.1 h)
  | _ => rfl

/-- A taken jump goes to its operand byte (R84, R153). -/
theorem pcAfter_of_taken {m : Mnemonic} {n : Byte} {s : State} (h : taken (m.toInstr n) s = true) :
    pcAfter (m.toInstr n) s = n := by
  cases m with
  | jmp => rfl
  | jc => exact if_pos h
  | jz => exact if_pos h
  | _ => cases h

/-- `PC` after a step: the operand byte after a taken jump, else the address after the instruction (R84). -/
theorem step_pc {s t : State} (h : step s = .next t) :
    t.pc = if taken s.fetchInstr s then s.fetchByte (s.pc + 1)
      else s.pc + BitVec.ofNat 8 (lengthOfOpcode (s.fetchByte s.pc)) := by
  rw [exec_pc h]
  split
  · next jumps =>
    obtain ⟨m, -, hi⟩ | ⟨-, hi⟩ := s.fetch_cases <;> rw [hi] at jumps ⊢
    · exact pcAfter_of_taken ((taken_latchIr _ s).trans jumps)
    · cases jumps
  · next goesOn =>
    rw [pcAfter_of_not_taken ((taken_latchIr _ s).trans (Bool.eq_false_iff.2 goesOn)), ← decodeBytes_length]
    rfl

/-- An advance of `PC` is taken modulo 256 (R82). -/
theorem add_ofNat_eq_ofNat_mod (p : Byte) (k : Nat) :
    p + BitVec.ofNat 8 k = BitVec.ofNat 8 ((p.toNat + k) % 256) := by
  apply BitVec.eq_of_toNat_eq
  simp

/-- Settles O22: `PC` after a step, with the taken jumps and the lengths in R73's opcode numbers. -/
theorem stepSetsPc : Obligations.StepSetsPc := by
  intro s t h
  simp only [step_pc h, taken_fetchInstr_iff, lengthOfOpcode_eq, add_ofNat_eq_ofNat_mod, State.fetchByte]
  split_ifs <;> rfl

/-! ### The signals -/

theorem signalAfter_toInstr_iff (m : Mnemonic) (n : Byte) : signalAfter (m.toInstr n) = .halt ↔ m.opcode = 0x0F := by
  cases m <;> decide +revert

/-- A step returns the halt signal exactly where the opcode byte is HLT's (R85). -/
theorem step_signal_halt_iff {s t : State} (h : step s = .next t) : t.signal = .halt ↔ s.fetchByte s.pc = 0x0F := by
  rw [exec_signal h]
  obtain ⟨m, hop, hi⟩ | ⟨hop, hi⟩ := s.fetch_cases <;> rw [hi]
  · rw [hop, signalAfter_toInstr_iff]
  · have not_hlt : s.fetchByte s.pc ≠ 0x0F := by
      intro hlt
      rw [hlt] at hop
      cases hop
    exact iff_of_false Signal.noConfusion not_hlt

theorem Signal.eq_cont_iff (g : Signal) : g = .cont ↔ g ≠ .halt := by
  cases g <;> decide

theorem haltO_iff (s : State) : haltO s = true ↔ s.fetchByte s.pc = 0x0F := decide_eq_true_iff

/-- Every meaning overwrites what the last step returned, so none reads it (R85, R86). -/
theorem exec_with_returned (i : Instr) (s : State) (signal : Signal) (seqOvf : Bool) :
    exec i { s with signal := signal, seqOvf := seqOvf } = exec i s := by
  cases i <;> rfl

theorem step_with_returned (s : State) (signal : Signal) (seqOvf : Bool) :
    step { s with signal := signal, seqOvf := seqOvf } = step s :=
  exec_with_returned s.fetchInstr s.latchIr signal seqOvf

/-- Settles O23: HLT alone returns the halt signal, and its opcode byte is what `halt_o` shows. -/
theorem haltSignalExactlyAtHlt : Obligations.HaltSignalExactlyAtHlt := by
  intro s t h
  have halt := step_signal_halt_iff h
  refine ⟨halt, ?_, (haltO_iff s).trans halt.symm, fun signal seqOvf => (step_with_returned s signal seqOvf).trans h⟩
  exact (Signal.eq_cont_iff t.signal).trans (not_congr halt)

/-- `seqovf` of a step is what the port `seqovf_o` shows before it (R39, R86). -/
theorem step_seqOvf {s t : State} (h : step s = .next t) : t.seqOvf = seqOvfO s := by
  rw [exec_seqOvf h, taken_latchIr, State.fetchInstr, decodeBytes_length]
  rfl

/-- The port `seqovf_o`: the advance passes address 255, and no jump is taken (R86). -/
theorem seqOvfO_iff (s : State) :
    seqOvfO s = true ↔
      255 < s.pc.toNat + lengthOfOpcode (s.fetchByte s.pc) ∧ ¬ taken s.fetchInstr s = true := by
  rw [← passesEnd_iff, Bool.not_eq_true, ← Bool.not_eq_true', ← Bool.and_eq_true]
  rfl

/-- Settles O24: a step reports what the port shows, with the taken jumps and the lengths in R73's opcode numbers. -/
theorem seqOvfExactlyAtSequentialWrap : Obligations.SeqOvfExactlyAtSequentialWrap := by
  intro s t h
  refine ⟨?_, (step_seqOvf h).symm, fun b => (step_with_returned s s.signal b).trans h⟩
  rw [step_seqOvf h, seqOvfO_iff, taken_fetchInstr_iff, lengthOfOpcode_eq]
  rfl

/-! ### The host's scheduler -/

theorem State.jumpIf_with_host (j : Bool) (n : Byte) (h : Scheduler) (s : State) :
    ({ s with host := h } : State).jumpIf j n = { s.jumpIf j n with host := h } := by
  cases j <;> rfl

/-- No meaning reads the scheduler: under another one, every meaning answers the same but for it (R89). -/
theorem exec_with_host {i : Instr} {s t : State} (h : Scheduler) (ht : exec i s = .next t) :
    exec i { s with host := h } = .next { t with host := h } := by
  cases i with
  | jc n => cases ht; exact congrArg Host.Outcome.next ((s.enter (.jc n)).jumpIf_with_host s.c (jumpTarget n) h)
  | jz n => cases ht; exact congrArg Host.Outcome.next ((s.enter (.jz n)).jumpIf_with_host s.z (jumpTarget n) h)
  | _ => cases ht; rfl

/-- The fetch reads only `PC` and `IM`, so a step reads the scheduler no more than the meaning it runs (R80). -/
theorem step_with_host {s t : State} (h : Scheduler) (ht : step s = .next t) :
    step { s with host := h } = .next { t with host := h } :=
  exec_with_host (i := s.fetchInstr) (s := s.latchIr) h ht

/-- Settles O25: no meaning writes the scheduler, and none reads it. -/
theorem stepIgnoresTheScheduler : Obligations.StepIgnoresTheScheduler :=
  fun _ _ h ht => ⟨(step_keeps ht).2.2, step_with_host h ht⟩

end Sys2Proof.Machine
end

section
/-! The assembler (30_encoding.md, section 4): the image fits (R101), and an unresolved operand is reported (R99). -/

namespace Sys2Proof.Assembler

/-! ### The length of an image -/

/-- An instruction's encoding has its opcode byte and its operand bytes (R70). -/
theorem encode_toInstr_length (m : Mnemonic) (n : Byte) : (encode (m.toInstr n)).length = 1 + m.operandCount := by
  cases m <;> rfl

/-- An item that resolves has as many bytes as pass 1 counted for it (R96, R97). -/
theorem resolveItem_encode_length {labels : List (Token × Nat)} {it : Item} {i : Instr}
    (h : resolveItem labels it = .ok i) : (encode i).length = it.size := by
  unfold resolveItem at h
  split at h
  · cases h; exact encode_toInstr_length _ _
  · split at h <;> cases h
    exact encode_toInstr_length _ _

/-- An item that does not resolve gives no byte, so an image has at most the bytes counted for its items. -/
theorem encodeAll_resolvedInstrs_length_le (labels : List (Token × Nat)) (items : List Item) :
    (encodeAll (resolvedInstrs labels items)).length ≤ (items.map Item.size).sum := by
  induction items with
  | nil => exact Nat.le_refl 0
  | cons it its ih =>
    unfold resolvedInstrs
    rw [List.map_cons, List.sum_cons]
    cases h : resolveItem labels it with
    | error e => exact ih.trans (Nat.le_add_left ..)
    | ok i =>
      calc (encodeAll (i :: resolvedInstrs labels its)).length
          = it.size + (encodeAll (resolvedInstrs labels its)).length := by
            rw [← resolveItem_encode_length h]; exact List.length_append
        _ ≤ it.size + (its.map Item.size).sum := Nat.add_le_add_left ih _

/-- A label definition adds no instruction and leaves the running address (R92). -/
theorem Pass1.bindLabel_keeps (line : Nat) (name : Token) (p : Pass1) :
    (p.bindLabel line name).items = p.items ∧ (p.bindLabel line name).address = p.address := by
  obtain ⟨r, h⟩ | ⟨-, -, h⟩ := p.bindLabel_cases line name <;> rw [h] <;> exact ⟨rfl, rfl⟩

/-- The running address has counted every instruction gathered (R96). -/
theorem pass1_sizes_le_address (text : List Char) :
    ((pass1 text).items.map Item.size).sum ≤ (pass1 text).address := by
  refine pass1_induction_parts (motive := fun p => (p.items.map Item.size).sum ≤ p.address) text (Nat.le_refl 0) ?_ ?_
  · intro p k name hp
    obtain ⟨hitems, haddress⟩ := p.bindLabel_keeps k name
    rwa [hitems, haddress]
  · intro p k ts hp
    obtain ⟨-, h⟩ | ⟨t, rest, -, -, h⟩ | ⟨t, rest, m, r, -, -, -, h⟩ | ⟨t, rest, m, operand, -, -, -, h⟩ :=
      p.addInstruction_cases k ts <;> rw [h]
    · exact hp
    · exact hp
    · exact hp.trans (Nat.le_add_right ..)
    · simpa [Pass1.advance, Item.size] using hp

/-- Settles O50: an image has at most the bytes that pass 1 counted, and those are at most 256 where a text assembles. -/
theorem assembledImageFits : Obligations.AssembledImageFits := by
  intro text r h
  obtain ⟨-, -, fits, rfl⟩ := assemble_ok_iff.1 h
  exact (encodeAll_resolvedInstrs_length_le _ _).trans ((pass1_sizes_le_address text.toList).trans fits)

/-! ### An unresolved operand -/

/-- What one line of the text makes true, whatever stands before it, and every line keeps, holds at the end of pass 1. -/
theorem pass1_of_line {motive : Pass1 → Prop} {text : List Char} {numbered : Nat × Token}
    (mem : numbered ∈ numberFrom 0 (splitLines text)) (makes : ∀ p : Pass1, motive (p.addLine numbered))
    (keeps : ∀ (p : Pass1) numbered, motive p → motive (p.addLine numbered)) : motive (pass1 text) := by
  obtain ⟨before, after, lines_eq⟩ := List.append_of_mem mem
  rw [pass1, lines_eq, List.foldl_append, List.foldl_cons]
  exact List.foldlRecOn after _ (makes _) fun p hp numbered _ => keeps p numbered hp

theorem Pass1.items_subset_addInstruction (line : Nat) (ts : List Token) (p : Pass1) :
    p.items ⊆ (p.addInstruction line ts).items := by
  obtain ⟨-, h⟩ | ⟨t, rest, -, -, h⟩ | ⟨t, rest, m, r, -, -, -, h⟩ | ⟨t, rest, m, operand, -, -, -, h⟩ :=
    p.addInstruction_cases line ts <;> rw [h]
  · exact List.Subset.refl _
  · exact List.Subset.refl _
  · exact List.Subset.refl _
  · exact List.subset_append_left ..

/-- Pass 1 drops no instruction that it has gathered. -/
theorem Pass1.items_subset_addLine (p : Pass1) (numbered : Nat × Token) : p.items ⊆ (p.addLine numbered).items := by
  rw [Pass1.addLine_eq]
  refine List.Subset.trans ?_ (Pass1.items_subset_addInstruction ..)
  cases lineLabel numbered.2 with
  | none => exact List.Subset.refl _
  | some name => exact (p.bindLabel_keeps numbered.1 name).1.symm ▸ List.Subset.refl _

/-- An instruction with its operand is gathered with its line, its address and that operand, whatever tokens follow
(R95, R96). -/
theorem Pass1.mem_items_addInstruction {name operand : Token} {m : Mnemonic} (line : Nat) (rest : List Token)
    (p : Pass1) (hname : mnemonicOfToken name = some m) (hm : m.operandCount = 1) :
    ⟨line, p.address, m, some operand⟩ ∈ (p.addInstruction line (name :: operand :: rest)).items := by
  simp [Pass1.addInstruction, hname, operandTokens, hm]

/-- An instruction with its operand on a line of a text stands among those that pass 1 gathers (R96). -/
theorem exists_item_of_line {text : List Char} {k : Nat} {line name operand : Token} {rest : List Token} {m : Mnemonic}
    (mem : (k, line) ∈ numberFrom 0 (splitLines text)) (htokens : instructionTokens line = name :: operand :: rest)
    (hname : mnemonicOfToken name = some m) (hm : m.operandCount = 1) :
    ∃ it ∈ (pass1 text).items, it.line = k ∧ it.operand = some operand := by
  refine pass1_of_line (motive := fun p => ∃ it ∈ p.items, it.line = k ∧ it.operand = some operand) mem ?_ ?_
  · intro p
    rw [Pass1.addLine_eq, htokens]
    exact ⟨_, Pass1.mem_items_addInstruction k rest _ hname hm, rfl, rfl⟩
  · rintro p numbered ⟨it, hit, hline⟩
    exact ⟨it, p.items_subset_addLine numbered hit, hline⟩

theorem resolveOperand_eq_none {labels : List (Token × Nat)} {t : Token} (hdecimal : isDecimal t = false)
    (hlabel : labels.lookup t = none) : resolveOperand labels t = none := by
  simp [resolveOperand, hdecimal, hlabel]

theorem resolveItem_error {labels : List (Token × Nat)} {it : Item} {t : Token} (hoperand : it.operand = some t)
    (hresolve : resolveOperand labels t = none) :
    resolveItem labels it = .error ⟨it.line, .unresolvedOperand t⟩ := by
  simp [resolveItem, hoperand, hresolve]

/-- An error of pass 2 is an error of the text (R100). -/
theorem assemble_error_of_mem_resolveErrors {text : String} {e : AsmError}
    (h : e ∈ resolveErrors (pass1 text.toList).labels (pass1 text.toList).items) :
    ∃ errors, assemble text = .error errors ∧ e ∈ errors := by
  cases ha : assemble text with
  | ok r =>
    obtain ⟨-, none_left, -, -⟩ := assemble_ok_iff.1 ha
    rw [none_left] at h
    cases h
  | error errors =>
    refine ⟨errors, rfl, ?_⟩
    rw [assemble_error ha]
    exact List.mem_append_left _ (List.mem_append_right _ h)

/-- Settles O55: pass 1 gathers the line's instruction with its operand, and pass 2 reports that it does not resolve. -/
theorem unresolvedOperandIsReported : Obligations.UnresolvedOperandIsReported := by
  intro text k line name operand rest m mem htokens hname hm hdecimal hlabel
  obtain ⟨it, hit, rfl, hoperand⟩ := exists_item_of_line mem htokens hname hm
  exact assemble_error_of_mem_resolveErrors
    (mem_resolveErrors.2 ⟨it, hit, resolveItem_error hoperand (resolveOperand_eq_none hdecimal hlabel)⟩)

end Sys2Proof.Assembler
end

section
/-! The loads and the store (40_load_store.md): LDA (R110), STA (R111) and LDI (R112). -/

namespace Sys2Proof.Machine

/-! ### The architectural view after what an instruction writes -/

theorem State.writeA_arch (v : Byte) (s : State) :
    (s.writeA v).arch = { s.arch with a := v, z := decide (v = 0) } := rfl

/-- `currentDataAddress` is presentation-only: the architectural view leaves it out (R37). -/
theorem State.touch_arch (n : Byte) (s : State) : (s.touch n).arch = s.arch := rfl

theorem State.memWrite_arch (a v : Byte) (s : State) :
    (s.memWrite a v).arch = { s.arch with dm := (s.memWrite a v).dm } := rfl

/-- The pre-advance of a two-byte instruction (R84, R82, R86). -/
theorem State.enter_arch_of_length_two {i : Instr} (h : i.length = 2) (s : State) :
    (s.enter i).arch =
      { s.arch with pc := s.pc + 2, signal := .cont, seqOvf := decide (255 < s.pc.toNat + 2) } := by
  rw [State.enter_arch, h]
  rfl

/-! ### The three instructions -/

/-- Settles O2: after the pre-advance, LDA writes `A` and `Z` alone, with the byte that the direct operand reads. -/
theorem ldaLoadsAccumulator : Obligations.LdaLoadsAccumulator := by
  refine fun n => ⟨rfl, fun s => ⟨_, rfl, ?_, rfl⟩⟩
  rw [State.writeA_arch, State.touch_arch, State.enter_arch_of_length_two rfl]
  rfl

/-- Settles O3: after the pre-advance, STA writes `DM` alone, and a read after that write gives `A` at `n` only. -/
theorem staStoresAccumulator : Obligations.StaStoresAccumulator := by
  refine fun n => ⟨rfl, rfl, fun s canonical => ⟨_, rfl, ?_, fun x => ?_, rfl⟩⟩
  · rw [State.memWrite_arch, State.touch_arch, State.enter_arch_of_length_two rfl]
  · exact State.memWrite_read (s := (s.enter (.sta n)).touch (effectiveAddress n)) canonical (effectiveAddress n) s.a x

/-- Settles O4: after the pre-advance, LDI writes `A` and `Z` alone, with its operand byte; the assembler masks 256 to 0
(R94). -/
theorem ldiLoadsImmediate : Obligations.LdiLoadsImmediate := by
  refine ⟨by decide, fun n => ⟨rfl, fun s => ⟨_, rfl, ?_, rfl⟩⟩⟩
  rw [State.writeA_arch, State.enter_arch_of_length_two rfl]
  rfl

end Sys2Proof.Machine
end

section
/-! The arithmetic (41_alu.md): ADD (R130), SUB (R131) and the laws that hold of both over all bytes (R134). -/

namespace Sys2Proof.Machine

/-! ### The two operations on bytes -/

theorem addResult_eq_ofNat (a m : Byte) : addResult a m = BitVec.ofNat 8 ((a.toNat + m.toNat) % 256) := by
  rw [← addResult_toNat, BitVec.ofNat_toNat, BitVec.setWidth_eq]

theorem subResult_eq_ofNat (a m : Byte) : subResult a m = BitVec.ofNat 8 ((a.toNat + 256 - m.toNat) % 256) := by
  rw [← subResult_toNat, BitVec.ofNat_toNat, BitVec.setWidth_eq]

theorem addResult_eq_zero_iff (a m : Byte) : addResult a m = 0 ↔ (a.toNat + m.toNat) % 256 = 0 := by
  rw [← addResult_toNat]
  exact BitVec.toNat_inj.symm

/-- SUB's result as an integer: the difference modulo 256 (R131, R134). -/
theorem subResult_toNat_cast (a m : Byte) : ((subResult a m).toNat : Int) = ((a.toNat : Int) - (m.toNat : Int)) % 256 := by
  have hm := m.isLt
  rw [subResult_toNat]
  omega

/-- A zero sum without a carry has two zero summands; with a carry they would add up to 256 (R134). -/
theorem addResult_eq_zero_and_no_carry_iff (a m : Byte) :
    (addResult a m = 0 ∧ addCarry a m = false) ↔ (a.toNat = 0 ∧ m.toNat = 0) := by
  rw [addResult_eq_zero_iff, ← Bool.not_eq_true, addCarry_iff]
  omega

theorem decide_addResult_eq_zero (a m : Byte) :
    decide (addResult a m = 0) = decide ((a.toNat + m.toNat) % 256 = 0) :=
  decide_eq_decide.2 (addResult_eq_zero_iff a m)

theorem decide_subResult_eq_zero (a m : Byte) : decide (subResult a m = 0) = decide (a = m) :=
  decide_eq_decide.2 (subResult_eq_zero_iff a m)

theorem subBorrow_eq_decide (a m : Byte) : subBorrow a m = decide (a.toNat < m.toNat) := by
  rw [Bool.eq_iff_iff, subBorrow_iff, decide_eq_true_eq]

/-- Equal bytes, whose difference is 0, do not borrow (R134). -/
theorem subBorrow_self (a : Byte) : subBorrow a a = false := by
  rw [← Bool.not_eq_true, subBorrow_iff]
  exact lt_irrefl _

/-! ### What the two instructions leave in `A`, `C` and `Z` -/

theorem exec_add_result {n : Byte} {s t : State} (h : exec (.add n) s = .next t) :
    t.a = addResult s.a (Memory.read s.dm n.toNat) ∧ t.c = addCarry s.a (Memory.read s.dm n.toNat) ∧
      t.z = decide (t.a = 0) := by
  cases h
  exact ⟨rfl, rfl, rfl⟩

theorem exec_sub_result {n : Byte} {s t : State} (h : exec (.sub n) s = .next t) :
    t.a = subResult s.a (Memory.read s.dm n.toNat) ∧ t.c = subBorrow s.a (Memory.read s.dm n.toNat) ∧
      t.z = decide (t.a = 0) := by
  cases h
  exact ⟨rfl, rfl, rfl⟩

/-- Settles O31: what ADD and SUB leave in `A`, `C` and `Z` is the ALU's result and carry, of which each law is a fact
about two bytes. -/
theorem arithmeticLaws : Obligations.ArithmeticLaws := by
  intro n s t u hadd hsub
  obtain ⟨ta, tc, tz⟩ := exec_add_result hadd
  obtain ⟨ua, uc, uz⟩ := exec_sub_result hsub
  generalize Memory.read s.dm n.toNat = m at *
  have uz_iff : u.z = true ↔ s.a = m := by rw [uz, decide_eq_true_eq, ua, subResult_eq_zero_iff]
  refine ⟨ta ▸ addResult_toNat s.a m, tc ▸ addCarry_iff s.a m, tz ▸ decide_eq_true_iff,
    ua ▸ subResult_toNat_cast s.a m, uc ▸ subBorrow_iff s.a m, uz ▸ decide_eq_true_iff, ?_,
    uz_iff.trans BitVec.toNat_inj.symm, fun hz => ?_⟩
  · rw [tz, decide_eq_true_eq, ta, tc]
    exact addResult_eq_zero_and_no_carry_iff s.a m
  · rw [uc, ← uz_iff.1 hz]
    exact subBorrow_self s.a

/-! ### The two instructions -/

theorem State.writeCarry_arch (b : Bool) (s : State) : (s.writeCarry b).arch = { s.arch with c := b } := rfl

/-- Settles O5: after the pre-advance, ADD writes `A`, `Z` and `C` alone, with the masked sum and its carry. -/
theorem addWritesSumAndCarry : Obligations.AddWritesSumAndCarry := by
  refine fun n => ⟨rfl, fun s => ⟨_, rfl, ?_, rfl⟩⟩
  rw [State.writeCarry_arch, State.writeA_arch, State.touch_arch, State.enter_arch_of_length_two rfl,
    decide_addResult_eq_zero, addResult_eq_ofNat]
  rfl

/-- Settles O6: after the pre-advance, SUB writes `A`, `Z` and `C` alone, with the masked difference and its borrow. -/
theorem subWritesDifferenceAndBorrow : Obligations.SubWritesDifferenceAndBorrow := by
  refine fun n => ⟨rfl, fun s => ⟨_, rfl, ?_, rfl⟩⟩
  rw [State.writeCarry_arch, State.writeA_arch, State.touch_arch, State.enter_arch_of_length_two rfl,
    decide_subResult_eq_zero, subResult_eq_ofNat, subBorrow_eq_decide]
  rfl

end Sys2Proof.Machine
end

section
/-! The jumps (42_control_flow.md): JMP (R150), JC (R151) and JZ (R152). -/

namespace Sys2Proof.Machine

/-- A jump writes `PC` and takes back the overflow of the pre-advance (R84, R86). -/
theorem State.jumpTo_arch (n : Byte) (s : State) : (s.jumpTo n).arch = { s.arch with pc := n, seqOvf := false } := rfl

/-- After the pre-advance of a two-byte instruction, a taken jump goes to its target and one that is not taken leaves
the pre-advance, with the overflow it may have (R84, R86). -/
theorem State.enter_jumpIf_arch {i : Instr} (h : i.length = 2) (j : Bool) (n : Byte) (s : State) :
    ((s.enter i).jumpIf j n).arch =
      { s.arch with
        pc := if j = true then n else s.pc + 2
        signal := .cont
        seqOvf := decide (j = false ∧ 255 < s.pc.toNat + 2) } := by
  cases j with
  | true =>
    rw [State.jumpIf, State.jumpTo_arch, State.enter_arch_of_length_two h]
    simp
  | false =>
    rw [State.jumpIf, State.enter_arch_of_length_two h]
    simp

/-- Settles O7: after the pre-advance, JMP writes `PC` and clears the overflow signal, and nothing else. -/
theorem jmpWritesPc : Obligations.JmpWritesPc := by
  refine fun n => ⟨rfl, fun s => ⟨_, rfl, ?_, rfl⟩⟩
  rw [State.jumpTo_arch, State.enter_arch_of_length_two rfl]
  rfl

/-- Settles O8: JC is the conditional jump on `C`. -/
theorem jcJumpsIffCarry : Obligations.JcJumpsIffCarry :=
  fun n => ⟨rfl, fun s => ⟨_, rfl, State.enter_jumpIf_arch rfl s.c n s, State.jumpIf_currentDataAddress s.c n _⟩⟩

/-- Settles O9: JZ is the conditional jump on `Z`. -/
theorem jzJumpsIffZero : Obligations.JzJumpsIffZero :=
  fun n => ⟨rfl, fun s => ⟨_, rfl, State.enter_jumpIf_arch rfl s.z n s, State.jumpIf_currentDataAddress s.z n _⟩⟩

end Sys2Proof.Machine
end

section
/-! The system instructions (43_system.md): NOP (R170), OUT (R171), HLT (R172) and the undefined opcodes (R173). -/

namespace Sys2Proof.Machine

/-! ### The architectural view after what an instruction writes -/

theorem State.writeIr_arch (op : Byte) (s : State) : (s.writeIr op).arch = { s.arch with ir := op } := rfl

theorem State.writeOut_arch (v : Byte) (s : State) : (s.writeOut v).arch = { s.arch with out := v } := rfl

theorem State.raiseHalt_arch (s : State) : s.raiseHalt.arch = { s.arch with signal := .halt } := rfl

/-- The pre-advance of a one-byte instruction (R84, R82, R86). -/
theorem State.enter_arch_of_length_one {i : Instr} (h : i.length = 1) (s : State) :
    (s.enter i).arch =
      { s.arch with pc := s.pc + 1, signal := .cont, seqOvf := decide (255 < s.pc.toNat + 1) } := by
  rw [State.enter_arch, h]
  rfl

/-! ### The steps that these instructions' rules speak of -/

/-- A step on a byte 0x00 runs NOP, whatever byte follows it (R73, R80). -/
theorem step_of_fetchByte_zero {s : State} (h : s.fetchByte s.pc = 0x00) : step s = exec .nop (s.writeIr 0x00) := by
  have found : Mnemonic.ofOpcode (s.fetchByte s.pc) = some .nop := h ▸ Mnemonic.nop.ofOpcode_opcode
  rw [step, State.fetchInstr_mnemonic found, State.latchIr, h]
  rfl

/-- A step from address `p` runs what `IM` holds at `p` and `p + 1`, whatever the step before it returned (R80, R83). -/
theorem step_of_pc {t : State} {p : Byte} (h : t.pc = p) :
    step t = exec (decodeBytes (Memory.read t.im p.toNat) (Memory.read t.im (p + 1).toNat))
      { t with ir := Memory.read t.im p.toNat } := by
  subst h
  rfl

/-! ### The four meanings -/

/-- Settles O1: NOP is the pre-advance alone, and a step on its opcode byte writes `IR` before it. -/
theorem nopOnlyAdvancesPc : Obligations.NopOnlyAdvancesPc := by
  refine ⟨rfl, fun s => ⟨_, rfl, State.enter_arch_of_length_one rfl s, rfl⟩,
    fun s fetched => ⟨_, step_of_fetchByte_zero fetched, ?_, rfl⟩⟩
  rw [State.enter_arch_of_length_one rfl, State.writeIr_arch]
  rfl

/-- Settles O10: after the pre-advance, OUT writes the output register alone, with `A`. -/
theorem outCopiesAccumulator : Obligations.OutCopiesAccumulator := by
  refine ⟨rfl, fun s => ⟨_, rfl, ?_, rfl⟩⟩
  rw [State.writeOut_arch, State.enter_arch_of_length_one rfl]

/-- Settles O11: after the pre-advance, HLT raises the halt signal alone, so the next step runs what stands at `p + 1`
with its operand byte at `p + 2`. -/
theorem hltSignalsHaltOnly : Obligations.HltSignalsHaltOnly := by
  refine ⟨rfl, fun s => ⟨_, rfl, ?_, rfl, ?_⟩⟩
  · rw [State.raiseHalt_arch, State.enter_arch_of_length_one rfl]
  · have operand_address : s.pc + 1 + 1 = s.pc + 2 := BitVec.add_assoc s.pc 1 1
    rw [← operand_address]
    exact step_of_pc (t := (s.enter .hlt).raiseHalt) rfl

/-- Settles O12: the lookup does not find such a byte, and its meaning writes `IR` and makes the pre-advance. -/
theorem undefinedByteIsOneByteNoOp : Obligations.UndefinedByteIsOneByteNoOp := by
  intro op n range
  have undefined : isUndefinedByte op = true :=
    (isUndefinedByte_iff op).2 (range.imp_right fun from16 => ⟨from16, Nat.le_of_lt_succ op.isLt⟩)
  refine ⟨(decodeBytes_eq_undefined_iff op n).2 undefined, rfl, fun s => ⟨_, rfl, ?_, rfl⟩⟩
  rw [State.enter_arch_of_length_one rfl, State.writeIr_arch]
  rfl

end Sys2Proof.Machine
end

section
/-! The host's stop and load (70_reset_and_hazards.md): R212, R213, R218. -/

namespace Sys2Proof.Machine

/-! ### `stop()` -/

theorem State.hostStop_running (s : State) : s.hostStop.host.running = false := by
  obtain ⟨-, ended⟩ | ⟨idle, kept⟩ := s.hostStop_cases
  · rw [ended]
  · rw [kept, idle]

/-- `stop()` has nothing to do where no run is in progress (R218). -/
theorem State.hostStop_of_not_running {s : State} (h : s.host.running = false) : s.hostStop = s := by
  obtain ⟨running, -⟩ | ⟨-, kept⟩ := s.hostStop_cases
  · rw [h] at running
    cases running
  · exact kept

theorem State.hostStop_hostStop (s : State) : s.hostStop.hostStop = s.hostStop :=
  State.hostStop_of_not_running s.hostStop_running

theorem State.hostStop_clockRateHz (s : State) : s.hostStop.host.clockRateHz = s.host.clockRateHz := by
  obtain ⟨-, ended⟩ | ⟨-, kept⟩ := s.hostStop_cases
  · rw [ended]
  · rw [kept]

/-- A tick is an event of a run in progress only (R217, R218). -/
theorem hostTick_of_not_running (policy : PcEndPolicy) {s : State} (h : s.host.running = false) :
    hostTick policy s = .error .noRunInProgress := by
  rw [hostTick, h]
  rfl

/-- Settles O41: `stop()` leaves no run in progress, so a second one keeps the state and a tick has no run to be of. -/
theorem stopIsIdempotentAndLeavesTheCore : Obligations.StopIsIdempotentAndLeavesTheCore :=
  fun policy s => ⟨s.hostStop, rfl, s.hostStop_running, s.hostStop_core, congrArg Except.ok s.hostStop_hostStop,
    hostTick_of_not_running policy s.hostStop_running⟩

/-! ### `load` -/

theorem hostLoad_of_fits {image : List Byte} (h : image.length ≤ 256) (sourceMap : List (Nat × Nat)) (s : State) :
    hostLoad image sourceMap s = .ok (s.loadImage image sourceMap) := if_pos h

theorem hostLoad_of_too_long {image : List Byte} (h : 256 < image.length) (sourceMap : List (Nat × Nat)) (s : State) :
    hostLoad image sourceMap s = .error (.imageTooLong image.length) := if_neg (Nat.not_le.2 h)

/-- Settles O37: the host's check of the length refuses the image. -/
theorem loadRefusesAnImageTooLong : Obligations.LoadRefusesAnImageTooLong :=
  fun _ _ sourceMap s tooLong => hostLoad_of_too_long tooLong sourceMap s

/-- But for `IM` and the scheduler, a load leaves what a reset leaves (R212). -/
theorem State.loadImage_core (image : List Byte) (sourceMap : List (Nat × Nat)) (s : State) :
    { s.loadImage image sourceMap with im := s.hostReset.im, host := s.hostReset.host } = s.hostReset := rfl

/-- Of the scheduler, a load keeps the clock rate alone (R102, R214, R215). -/
theorem State.loadImage_host (image : List Byte) (sourceMap : List (Nat × Nat)) (s : State) :
    (s.loadImage image sourceMap).host =
      { s.host with running := false, lifecycle := .loaded, sourceMap := sourceMap } := by
  calc (s.loadImage image sourceMap).host
      = ⟨s.hostStop.host.running, s.hostStop.host.clockRateHz, .loaded, sourceMap⟩ := rfl
    _ = ⟨false, s.host.clockRateHz, .loaded, sourceMap⟩ := by rw [s.hostStop_running, s.hostStop_clockRateHz]

/-- Byte `i` of an image that fits stands at `IM[i]` after its load, and every other byte of `IM` is 0 (R212). -/
theorem State.loadImage_read_im {image : List Byte} (h : image.length ≤ 256) (sourceMap : List (Nat × Nat)) (s : State)
    (i : Nat) : Memory.read (s.loadImage image sourceMap).im i = (image[i]?).getD 0 := by
  calc Memory.read (s.loadImage image sourceMap).im i
      = Memory.read (Memory.writeBytes [] 0 image) i := rfl
    _ = (image[i]?).getD 0 := by
      rw [Memory.read_writeBytes image i Memory.wf_nil (by omega)]
      simp

/-- Settles O36: a load is a reset and then the copy of the image into the cleared `IM`. -/
theorem loadPlacesTheImageAfterReset : Obligations.LoadPlacesTheImageAfterReset := by
  intro policy image sourceMap s fits
  refine ⟨s.hostReset, s.loadImage image sourceMap, rfl, hostLoad_of_fits fits sourceMap s,
    s.loadImage_core image sourceMap, rfl, rfl, rfl, rfl, rfl, rfl, rfl, ?_, ?_, rfl, s.loadImage_host image sourceMap⟩
  · exact fun x => State.loadImage_read_im fits sourceMap s x.toNat
  · exact fun x => Memory.read_nil x.toNat

end Sys2Proof.Machine
end

section
/-! The encoding (30_encoding.md, sections 1 and 2): decoding and encoding undo each other (R70, R73, R75), and an opcode
byte tells its mnemonic (R104). -/

namespace Sys2Proof

/-! ### Well-formed instructions are what bytes decode to -/

theorem Mnemonic.toInstr_wellFormed (m : Mnemonic) (n : Byte) : (m.toInstr n).wellFormed = true := by
  cases m <;> rfl

theorem decodeBytes_wellFormed (b n : Byte) : (decodeBytes b n).wellFormed = true := by
  cases hm : Mnemonic.ofOpcode b with
  | none => rw [decodeBytes_undefined hm]; exact (Mnemonic.ofOpcode_eq_none_iff b).1 hm
  | some m => rw [decodeBytes_mnemonic hm]; exact m.toInstr_wellFormed n

theorem decodeBytes_opcode (m : Mnemonic) (n : Byte) : decodeBytes m.opcode n = m.toInstr n :=
  decodeBytes_mnemonic m.ofOpcode_opcode n

/-- The well-formed instructions are the ones that the decoder gives (R73, R75). -/
theorem Instr.exists_decodeBytes_eq {i : Instr} (h : i.wellFormed = true) : ∃ b n, decodeBytes b n = i := by
  cases i with
  | nop => exact ⟨_, 0, decodeBytes_opcode .nop 0⟩
  | lda n => exact ⟨_, n, decodeBytes_opcode .lda n⟩
  | add n => exact ⟨_, n, decodeBytes_opcode .add n⟩
  | sub n => exact ⟨_, n, decodeBytes_opcode .sub n⟩
  | sta n => exact ⟨_, n, decodeBytes_opcode .sta n⟩
  | ldi n => exact ⟨_, n, decodeBytes_opcode .ldi n⟩
  | jmp n => exact ⟨_, n, decodeBytes_opcode .jmp n⟩
  | jc n => exact ⟨_, n, decodeBytes_opcode .jc n⟩
  | jz n => exact ⟨_, n, decodeBytes_opcode .jz n⟩
  | out => exact ⟨_, 0, decodeBytes_opcode .out 0⟩
  | hlt => exact ⟨_, 0, decodeBytes_opcode .hlt 0⟩
  | undefined op => exact ⟨op, 0, (decodeBytes_eq_undefined_iff op 0).2 h⟩

/-! ### Decode and encode -/

/-- The bytes that the decoder takes where it reads opcode byte `b` and operand byte `n`: both, or the first alone where
`b` decides the length 1 (R74). -/
def bytesRead (b n : Byte) : List Byte := if lengthOfOpcode b = 1 then [b] else [b, n]

theorem encode_toInstr (m : Mnemonic) (n : Byte) : encode (m.toInstr n) = bytesRead m.opcode n := by
  cases m <;> rfl

/-- An instruction is encoded by the bytes it is decoded from (R70). -/
theorem encode_decodeBytes (b n : Byte) : encode (decodeBytes b n) = bytesRead b n := by
  cases hm : Mnemonic.ofOpcode b with
  | none =>
    have one : lengthOfOpcode b = 1 := by rw [lengthOfOpcode, hm]
    rw [decodeBytes_undefined hm, bytesRead, if_pos one]
    rfl
  | some m => rw [decodeBytes_mnemonic hm, encode_toInstr, Mnemonic.opcode_of_ofOpcode hm]

theorem decode_bytesRead_append (b n : Byte) (rest : List Byte) :
    decode (bytesRead b n ++ rest) = .ok (decodeBytes b n, rest) := by
  by_cases one : lengthOfOpcode b = 1
  · rw [decodeBytes_of_length_one one n 0]
    simp [bytesRead, decode, one]
  · simp [bytesRead, decode, one]

/-- Bytes that decode are those the decoder takes, followed by those it leaves. -/
theorem eq_bytesRead_append_of_decode {bytes rest : List Byte} {i : Instr} (h : decode bytes = .ok (i, rest)) :
    ∃ b n, i = decodeBytes b n ∧ bytes = bytesRead b n ++ rest := by
  cases bytes with
  | nil => cases h
  | cons b tail =>
    by_cases one : lengthOfOpcode b = 1
    · simp only [decode, one, if_true] at h
      cases h
      exact ⟨b, 0, rfl, by simp [bytesRead, one]⟩
    · cases tail with
      | nil => simp [decode, one] at h
      | cons n tail =>
        simp only [decode, one, if_false] at h
        cases h
        exact ⟨b, n, rfl, by simp [bytesRead, one]⟩

/-- Settles O14: a well-formed instruction is what some two bytes decode to, its encoding is the bytes read of them, and
those decode to it whatever follows. -/
theorem decodeAfterEncodeIsIdentity : Obligations.DecodeAfterEncodeIsIdentity := by
  intro i rest wf
  obtain ⟨b, n, rfl⟩ := Instr.exists_decodeBytes_eq wf
  rw [encode_decodeBytes, decode_bytesRead_append]

/-- Settles O15: the bytes that the decoder takes are the encoding of what it reads from them. -/
theorem encodeAfterDecodeIsIdentity : Obligations.EncodeAfterDecodeIsIdentity := by
  intro bytes rest i h
  obtain ⟨b, n, rfl, rfl⟩ := eq_bytesRead_append_of_decode h
  exact ⟨decodeBytes_wellFormed b n, by rw [encode_decodeBytes]⟩

/-- Settles O13: each word written out is its instruction's encoding, which decodes to it (O14). -/
theorem writtenWordsDecode : Obligations.WrittenWordsDecode :=
  ⟨decodeAfterEncodeIsIdentity .nop [] rfl, decodeAfterEncodeIsIdentity (.lda 20) [] rfl,
    decodeAfterEncodeIsIdentity (.add 21) [] rfl, decodeAfterEncodeIsIdentity (.ldi 255) [] rfl,
    decodeAfterEncodeIsIdentity (.jc 21) [] rfl, decodeAfterEncodeIsIdentity .out [] rfl,
    decodeAfterEncodeIsIdentity .hlt [] rfl, decodeAfterEncodeIsIdentity (.undefined 0x1F) [] rfl⟩

/-! ### The mnemonic of an opcode byte -/

theorem decodeBytes_mnemonic? (b n : Byte) : (decodeBytes b n).mnemonic? = Mnemonic.ofOpcode b := by
  cases hm : Mnemonic.ofOpcode b with
  | none => rw [decodeBytes_undefined hm]; rfl
  | some m => rw [decodeBytes_mnemonic hm, m.toInstr_mnemonic?]

theorem bytesRead_eq_cons (b n : Byte) : ∃ rest, bytesRead b n = b :: rest := by
  unfold bytesRead
  split
  · exact ⟨[], rfl⟩
  · exact ⟨[n], rfl⟩

/-- Settles O54: an encoding begins with the opcode byte, and the disassembler's lookup of it is the decoder's. -/
theorem disassemblyRecoversTheMnemonic : Obligations.DisassemblyRecoversTheMnemonic := by
  intro i wf
  obtain ⟨b, n, rfl⟩ := Instr.exists_decodeBytes_eq wf
  obtain ⟨rest, begins⟩ := bytesRead_eq_cons b n
  rw [encode_decodeBytes, decodeBytes_mnemonic?]
  exact ⟨b, rest, begins, rfl⟩

end Sys2Proof
end

section
/-! The step (30_encoding.md, section 3): it runs the instruction stored at `PC` (R80, R83), and no architectural result of
it depends on the presentation-only state (R6). -/

namespace Sys2Proof.Machine

/-! ### The instruction at `PC` -/

/-- Settles O18: the decoder on the two bytes at `PC` reads what the fetch reads. -/
theorem stepRunsTheDecodedInstruction : Obligations.StepRunsTheDecodedInstruction := by
  intro s i rest h
  obtain ⟨left, fetched⟩ := decode_two_bytes (s.fetchByte s.pc) (s.fetchByte (s.pc + 1))
  cases fetched.symm.trans h
  rfl

/-- A step on a mnemonic's opcode byte runs its instruction, with the next byte as the operand (R80, R83). -/
theorem step_of_opcode {s : State} {m : Mnemonic} (h : s.fetchByte s.pc = m.opcode) :
    step s = exec (m.toInstr (s.fetchByte (s.pc + 1))) (s.writeIr m.opcode) := by
  rw [step, State.fetchInstr_mnemonic (h ▸ m.ofOpcode_opcode), State.latchIr, h]

/-- The bytes that encode what `b` and `n` decode to stand at `PC` (R83). -/
theorem State.holds_decodeBytes_iff (s : State) (b n : Byte) :
    s.Holds (decodeBytes b n) ↔ s.fetchByte s.pc = b ∧ (lengthOfOpcode b = 1 ∨ s.fetchByte (s.pc + 1) = n) := by
  rw [State.Holds, encode_decodeBytes, bytesRead]
  by_cases one : lengthOfOpcode b = 1 <;> simp [one]

/-- A well-formed instruction that stands at `PC` is the one fetched. -/
theorem State.fetchInstr_of_holds {s : State} {i : Instr} (wf : i.wellFormed = true) (h : s.Holds i) :
    s.fetchInstr = i := by
  obtain ⟨b, n, rfl⟩ := Instr.exists_decodeBytes_eq wf
  obtain ⟨opcode, one | operand⟩ := (s.holds_decodeBytes_iff b n).1 h
  · rw [State.fetchInstr, opcode, decodeBytes_of_length_one one _ n]
  · rw [State.fetchInstr, opcode, operand]

theorem step_of_holds {s : State} {i : Instr} (wf : i.wellFormed = true) (h : s.Holds i) : step s = exec i s.latchIr := by
  rw [step, State.fetchInstr_of_holds wf h]

/-- The encoding of the instruction fetched begins with the byte at `PC` (R70). -/
theorem State.encode_fetchInstr_head? (s : State) : (encode s.fetchInstr).head? = some (s.fetchByte s.pc) := by
  obtain ⟨rest, begins⟩ := bytesRead_eq_cons (s.fetchByte s.pc) (s.fetchByte (s.pc + 1))
  rw [State.fetchInstr, encode_decodeBytes, begins, List.head?_cons]

/-- Settles O19: an instruction whose encoding stands at `PC` is the one fetched, and the fetch writes its first byte. -/
theorem stepRunsTheStoredInstruction : Obligations.StepRunsTheStoredInstruction := by
  intro s i wf h
  refine ⟨s.fetchByte s.pc, ?_, step_of_holds wf h⟩
  rw [← State.fetchInstr_of_holds wf h, s.encode_fetchInstr_head?]

/-! ### The presentation-only state -/

/-- A state with a given architectural view, and nothing in its presentation-only state. -/
def State.ofArch (v : Arch) : State where
  a := v.a
  b := v.b
  pc := v.pc
  ir := v.ir
  z := v.z
  c := v.c
  out := v.out
  im := v.im
  dm := v.dm
  activeUnits := []
  aluState := default
  currentDataAddress := none
  signal := v.signal
  seqOvf := v.seqOvf
  freeIx := 0
  host := v.host

/-- A conditional jump reads no presentation-only state. -/
theorem State.jumpIf_arch_congr {s s' : State} (j : Bool) (n : Byte) (h : s.arch = s'.arch) :
    (s.jumpIf j n).arch = (s'.jumpIf j n).arch := by
  cases j with
  | true => rw [State.jumpIf, State.jumpIf, State.jumpTo_arch, State.jumpTo_arch, h]
  | false => exact h

/-- The architectural view after a meaning is a function of the one before it (R6). -/
theorem exec_ofArch {i : Instr} {s t u : State} (ht : exec i s = .next t)
    (hu : exec i (State.ofArch s.arch) = .next u) : t.arch = u.arch := by
  cases i with
  | jc n => cases ht; cases hu; exact State.jumpIf_arch_congr s.c (jumpTarget n) rfl
  | jz n => cases ht; cases hu; exact State.jumpIf_arch_congr s.z (jumpTarget n) rfl
  | _ => cases ht; cases hu; rfl

theorem step_ofArch {s t u : State} (ht : step s = .next t) (hu : step (State.ofArch s.arch) = .next u) :
    t.arch = u.arch :=
  exec_ofArch (i := s.fetchInstr) (s := s.latchIr) ht hu

/-- Settles O26: both steps leave the architectural view that the step leaves from their common one. -/
theorem presentationStateHasNoInfluence : Obligations.PresentationStateHasNoInfluence := by
  intro s s' t t' same ht ht'
  obtain ⟨u, hu⟩ := step_next (State.ofArch s.arch)
  rw [step_ofArch ht hu, step_ofArch ht' (same ▸ hu)]

end Sys2Proof.Machine
end

section
/-! Who writes what (10_state.md, 20_memory.md): `A`, `OUT` and `DM` have their writers (R20, R31, R33), `Z` tells the new
`A` (R27), and every step keeps the canonical form of the memories (R50). -/

namespace Sys2Proof.Machine

/-! ### `A`, `OUT` and `DM` after an instruction -/

/-- `A` after an instruction: what LDA, ADD, SUB or LDI writes to it, and as it was after every other (R20). -/
def accumulatorAfter (i : Instr) (s : State) : Byte :=
  match i with
  | .lda n => directOperand n s
  | .add n => addResult s.a (directOperand n s)
  | .sub n => subResult s.a (directOperand n s)
  | .ldi n => immediateOperand n
  | _ => s.a

/-- `OUT` after an instruction: `A` for OUT, and as it was after every other (R31). -/
def outAfter (i : Instr) (s : State) : Byte :=
  match i with
  | .out => s.a
  | _ => s.out

theorem exec_a {i : Instr} {s t : State} (h : exec i s = .next t) : t.a = accumulatorAfter i s := by
  cases i <;> cases h <;> simp [accumulatorAfter]

theorem exec_out {i : Instr} {s t : State} (h : exec i s = .next t) : t.out = outAfter i s := by
  cases i <;> cases h <;> simp [outAfter]

theorem zeroAfter_of_writer {i : Instr} (s : State)
    (h : i.mnemonic? ∈ [some Mnemonic.lda, some .add, some .sub, some .ldi]) :
    zeroAfter i s = decide (accumulatorAfter i s = 0) := by
  cases i with
  | lda n | add n | sub n | ldi n => rfl
  | _ => simp [Instr.mnemonic?] at h

/-- Settles O28: each of the four writes `Z` with whether the byte it writes to `A` is 0. -/
theorem zeroFlagTellsTheNewAccumulator : Obligations.ZeroFlagTellsTheNewAccumulator := by
  intro i s t writer h
  rw [exec_z h, exec_a h, zeroAfter_of_writer s writer, decide_eq_true_eq]

/-! ### In R73's opcode numbers -/

/-- The mnemonics that write `A` (R20). -/
theorem writes_a_of_toInstr {m : Mnemonic} {n : Byte} {s : State} (h : accumulatorAfter (m.toInstr n) s ≠ s.a) :
    m.opcode.toNat = 1 ∨ m.opcode.toNat = 2 ∨ m.opcode.toNat = 3 ∨ m.opcode.toNat = 5 := by
  cases m with
  | lda | add | sub | ldi => decide
  | _ => exact absurd rfl h

theorem step_writes_a {s t : State} (h : step s = .next t) (changed : t.a ≠ s.a) :
    (s.fetchByte s.pc).toNat = 1 ∨ (s.fetchByte s.pc).toNat = 2 ∨ (s.fetchByte s.pc).toNat = 3 ∨
      (s.fetchByte s.pc).toNat = 5 := by
  rw [exec_a h] at changed
  obtain ⟨m, hop, hi⟩ | ⟨-, hi⟩ := s.fetch_cases <;> rw [hi] at changed
  · exact hop ▸ writes_a_of_toInstr (s := s.latchIr) changed
  · exact absurd rfl changed

theorem writes_out_of_toInstr {m : Mnemonic} {n : Byte} {s : State} (h : outAfter (m.toInstr n) s ≠ s.out) :
    m.opcode.toNat = 9 ∧ outAfter (m.toInstr n) s = s.a := by
  cases m with
  | out => exact ⟨rfl, rfl⟩
  | _ => exact absurd rfl h

theorem step_writes_out {s t : State} (h : step s = .next t) (changed : t.out ≠ s.out) :
    (s.fetchByte s.pc).toNat = 9 ∧ t.out = s.a := by
  rw [exec_out h] at changed ⊢
  obtain ⟨m, hop, hi⟩ | ⟨-, hi⟩ := s.fetch_cases <;> rw [hi] at changed ⊢
  · exact hop ▸ writes_out_of_toInstr (s := s.latchIr) changed
  · exact absurd rfl changed

theorem dmAfter_toInstr (m : Mnemonic) (n : Byte) (s : State) :
    dmAfter (m.toInstr n) s = if m.opcode = 0x04 then Memory.write s.dm n.toNat s.a else s.dm := by
  cases m <;> rfl

/-- `DM` after a step: STA's opcode byte at `PC` writes `A` at the operand byte, and no other byte writes `DM` (R57). -/
theorem step_dm {s t : State} (h : step s = .next t) :
    t.dm =
      if s.fetchByte s.pc = 0x04 then Memory.write s.dm (s.fetchByte (s.pc + 1)).toNat s.a else s.dm := by
  rw [exec_dm h]
  obtain ⟨m, hop, hi⟩ | ⟨hop, hi⟩ := s.fetch_cases <;> rw [hi]
  · rw [hop, dmAfter_toInstr]
    rfl
  · have not_sta : s.fetchByte s.pc ≠ 0x04 := by
      intro sta
      rw [sta] at hop
      cases hop
    rw [if_neg not_sta]
    rfl

/-- What `DM` reads after a step on STA's opcode byte (R57). -/
theorem step_sta_read {s t : State} (canonical : Memory.wf s.dm = true) (h : step s = .next t)
    (sta : s.fetchByte s.pc = 0x04) (x : Byte) :
    Memory.read t.dm x.toNat = if x = s.fetchByte (s.pc + 1) then s.a else Memory.read s.dm x.toNat := by
  rw [step_dm h, if_pos sta]
  exact State.memWrite_read canonical (s.fetchByte (s.pc + 1)) s.a x

/-- A byte of `DM` that a step changes is the one that STA's operand addresses (R33, R57). -/
theorem step_writes_dm {s t : State} (canonical : Memory.wf s.dm = true) (h : step s = .next t) {x : Byte}
    (changed : Memory.read t.dm x.toNat ≠ Memory.read s.dm x.toNat) :
    (s.fetchByte s.pc).toNat = 4 ∧ x = s.fetchByte (s.pc + 1) ∧ Memory.read t.dm x.toNat = s.a := by
  by_cases sta : s.fetchByte s.pc = 0x04
  · rw [step_sta_read canonical h sta] at changed ⊢
    by_cases addressed : x = s.fetchByte (s.pc + 1)
    · exact ⟨congrArg BitVec.toNat sta, addressed, if_pos addressed⟩
    · exact absurd (if_neg addressed) changed
  · rw [step_dm h, if_neg sta] at changed
    exact absurd rfl changed

/-- Settles O29: the writers of `A`, `OUT` and `DM`, and that no meaning writes `B`. -/
theorem registersChangeOnlyByTheirWriters : Obligations.RegistersChangeOnlyByTheirWriters :=
  fun _ _ canonical h =>
    ⟨step_writes_a h, (step_keeps h).1, step_writes_out h, fun _ changed => step_writes_dm canonical h changed⟩

/-! ### The canonical form of the memories -/

/-- Settles O44: the memories of the reset state list no byte. -/
theorem memoriesAreCanonicalAtReset : Obligations.MemoriesAreCanonicalAtReset :=
  ⟨State.reset_im_wf, State.reset_dm_wf⟩

theorem step_memInv {s t : State} (inv : s.MemInv) (h : step s = .next t) : t.MemInv := by
  obtain ⟨im_wf, dm_wf⟩ := inv
  obtain ⟨-, im_kept, -⟩ := step_keeps h
  refine ⟨im_kept.symm ▸ im_wf, ?_⟩
  rw [step_dm h]
  split
  · exact Memory.wf_write dm_wf _ _
  · exact dm_wf

/-- Settles O45: a step keeps `IM`, and writes at most one byte of `DM`, which keeps its form. -/
theorem stepKeepsMemoriesCanonical : Obligations.StepKeepsMemoriesCanonical :=
  fun _ _ inv h => step_memInv inv h

end Sys2Proof.Machine
end

section
/-! Successive instructions (70_reset_and_hazards.md, section 5): a load after a store reads the byte stored, and a jump
after a flag writer reads the flags written (R226). -/

namespace Sys2Proof.Machine

/-! ### A load after a store -/

theorem exec_sta_result {n : Byte} {s t : State} (h : exec (.sta n) s = .next t) :
    t.a = s.a ∧ t.dm = Memory.write s.dm n.toNat s.a :=
  ⟨exec_a h, exec_dm h⟩

/-- STA leaves `A` in `A` and in `DM[n]` (R111). -/
theorem step_holds_sta {n : Byte} {s t : State} (canonical : Memory.wf s.dm = true) (holds : s.Holds (.sta n))
    (h : step s = .next t) : t.a = s.a ∧ Memory.read t.dm n.toNat = s.a := by
  rw [step_of_holds rfl holds] at h
  obtain ⟨ta, tdm⟩ := exec_sta_result h
  refine ⟨ta, ?_⟩
  rw [tdm, State.latchIr_dm, Memory.read_write canonical, if_pos rfl, State.latchIr_a]

/-- Settles O32: LDA, ADD and SUB read `DM[n]`, where STA has put the `A` that they find too. -/
theorem loadAfterStoreSeesTheStoredByte : Obligations.LoadAfterStoreSeesTheStoredByte := by
  intro n s t u canonical sta hs ht
  obtain ⟨ta, stored⟩ := step_holds_sta canonical sta hs
  refine ⟨fun lda => ?_, fun add => ?_, fun sub => ?_⟩
  · rw [step_of_holds rfl lda] at ht
    exact (exec_a ht).trans stored
  · rw [step_of_holds rfl add] at ht
    obtain ⟨ua, -, -⟩ := exec_add_result ht
    rw [ua, addResult_toNat, State.latchIr_a, State.latchIr_dm, ta, stored]
  · rw [step_of_holds rfl sub] at ht
    obtain ⟨ua, uc, uz⟩ := exec_sub_result ht
    rw [State.latchIr_a, State.latchIr_dm, ta, stored] at ua uc
    have zero : u.a = 0 := ua.trans ((subResult_eq_zero_iff s.a s.a).2 rfl)
    exact ⟨zero, uz.trans (decide_eq_true zero), uc.trans (subBorrow_self s.a)⟩

/-! ### A jump after a flag writer -/

/-- A two-byte instruction that is no jump advances `PC` by 2 (R84). -/
theorem step_holds_pc_of_length_two {i : Instr} {s t : State} (wf : i.wellFormed = true) (two : i.length = 2)
    (no_jump : taken i s = false) (holds : s.Holds i) (h : step s = .next t) : t.pc = s.pc + 2 := by
  rw [step_of_holds wf holds] at h
  rw [exec_pc h, pcAfter_of_not_taken ((taken_latchIr i s).trans no_jump), two]
  rfl

theorem step_holds_jc {k : Byte} {s t : State} (holds : s.Holds (.jc k)) (h : step s = .next t) :
    t.pc = if s.c = true then k else s.pc + 2 :=
  exec_pc (step_of_holds rfl holds ▸ h)

theorem step_holds_jz {k : Byte} {s t : State} (holds : s.Holds (.jz k)) (h : step s = .next t) :
    t.pc = if s.z = true then k else s.pc + 2 :=
  exec_pc (step_of_holds rfl holds ▸ h)

theorem step_holds_add_carry_iff {n : Byte} {s t : State} (holds : s.Holds (.add n)) (h : step s = .next t) :
    t.c = true ↔ 255 < s.a.toNat + (Memory.read s.dm n.toNat).toNat := by
  obtain ⟨-, tc, -⟩ := exec_add_result (step_of_holds rfl holds ▸ h)
  rw [tc]
  exact addCarry_iff s.a (Memory.read s.dm n.toNat)

theorem step_holds_sub_carry_iff {n : Byte} {s t : State} (holds : s.Holds (.sub n)) (h : step s = .next t) :
    t.c = true ↔ s.a.toNat < (Memory.read s.dm n.toNat).toNat := by
  obtain ⟨-, tc, -⟩ := exec_sub_result (step_of_holds rfl holds ▸ h)
  rw [tc]
  exact subBorrow_iff s.a (Memory.read s.dm n.toNat)

theorem add_two_add_two (p : Byte) : p + 2 + 2 = p + 4 := BitVec.add_assoc p 2 2

/-- The four writers of `Z` have an operand byte and are no jumps (R29, R73). -/
theorem zero_writer_length_and_no_jump {m : Mnemonic} (writer : m ∈ [Mnemonic.lda, .add, .sub, .ldi]) (n : Byte)
    (s : State) : (m.toInstr n).length = 2 ∧ taken (m.toInstr n) s = false := by
  cases m with
  | lda | add | sub | ldi => exact ⟨rfl, rfl⟩
  | _ => simp at writer

/-- JZ after one of the four writers of `Z` (R226). -/
theorem jz_after_zero_writer {m : Mnemonic} {n k : Byte} {s t u : State}
    (writer : m ∈ [Mnemonic.lda, .add, .sub, .ldi]) (holds : s.Holds (m.toInstr n)) (hs : step s = .next t)
    (jz : t.Holds (.jz k)) (ht : step t = .next u) : u.pc = if t.a = 0 then k else s.pc + 4 := by
  have wf := m.toInstr_wellFormed n
  obtain ⟨two, no_jump⟩ := zero_writer_length_and_no_jump writer n s
  have writes_zero : (m.toInstr n).mnemonic? ∈ [some Mnemonic.lda, some .add, some .sub, some .ldi] := by
    rw [m.toInstr_mnemonic?]
    exact List.mem_map_of_mem writer
  have zero := zeroFlagTellsTheNewAccumulator _ s.latchIr t writes_zero (step_of_holds wf holds ▸ hs)
  rw [step_holds_jz jz ht, step_holds_pc_of_length_two wf two no_jump holds hs, add_two_add_two]
  simp only [zero]

/-- Settles O33: each jump reads the flag that the instruction before it wrote, from the address 2 past it. -/
theorem jumpAfterFlagWriterReadsItsFlags : Obligations.JumpAfterFlagWriterReadsItsFlags := by
  intro n k s t u hs ht
  refine ⟨fun add jc => ?_, fun sub jc => ?_, fun writer jz => ?_⟩
  · rw [step_holds_jc jc ht, step_holds_pc_of_length_two rfl rfl rfl add hs, add_two_add_two]
    simp only [step_holds_add_carry_iff add hs]
  · rw [step_holds_jc jc ht, step_holds_pc_of_length_two rfl rfl rfl sub hs, add_two_add_two]
    simp only [step_holds_sub_carry_iff sub hs]
  · obtain add | sub | lda | ldi := writer
    · exact jz_after_zero_writer (m := .add) (by decide) add hs jz ht
    · exact jz_after_zero_writer (m := .sub) (by decide) sub hs jz ht
    · exact jz_after_zero_writer (m := .lda) (by decide) lda hs jz ht
    · exact jz_after_zero_writer (m := .ldi) (by decide) ldi hs jz ht

end Sys2Proof.Machine
end

section
/-! The host's reset, step, run and ticks (70_reset_and_hazards.md): R210, R211, R216, R217, R219, R222, R223, and the
invariants that every operation keeps (R50, R215). -/

namespace Sys2Proof.Machine

/-! ### Construction and reset -/

/-- Settles O35: the reset state is a construction, which sets each element to its reset value. -/
theorem constructionIsTheResetState : Obligations.ConstructionIsTheResetState :=
  ⟨rfl, fun _ => ⟨rfl, rfl, rfl, rfl, rfl, rfl, rfl, fun x => ⟨Memory.read_nil x.toNat, Memory.read_nil x.toNat⟩,
    rfl, rfl, rfl, rfl⟩⟩

/-- Of the scheduler, `stop()` leaves all but `running` and the lifecycle (R218). -/
theorem State.hostStop_sourceMap (s : State) : s.hostStop.host.sourceMap = s.host.sourceMap := by
  obtain ⟨-, ended⟩ | ⟨-, kept⟩ := s.hostStop_cases
  · rw [ended]
  · rw [kept]

/-- A reset stops a run, and leaves the clock rate and the source map (R210, R214, R215). -/
theorem State.hostReset_host (s : State) :
    s.hostReset.host = { s.host with running := false, lifecycle := .idle } := by
  calc s.hostReset.host
      = ⟨s.hostStop.host.running, s.hostStop.host.clockRateHz, .idle, s.hostStop.host.sourceMap⟩ := rfl
    _ = ⟨false, s.host.clockRateHz, .idle, s.host.sourceMap⟩ := by
      rw [s.hostStop_running, s.hostStop_clockRateHz, s.hostStop_sourceMap]

/-- Settles O34: a reset puts the reset state's elements in the core, and of the scheduler it sets `running` and the
lifecycle alone. -/
theorem resetClearsEveryElement : Obligations.ResetClearsEveryElement := by
  refine fun policy s => ⟨s.hostReset, rfl, rfl, rfl, rfl, rfl, rfl, rfl, rfl,
    fun x => ⟨Memory.read_nil x.toNat, Memory.read_nil x.toNat⟩, rfl, ?_⟩
  rw [s.hostReset_host]
  exact ⟨rfl, rfl, rfl, rfl⟩

/-! ### `step()` and the clock speed -/

theorem hostStep_of_not_running {s t : State} (h : s.host.running = false) (ht : step s = .next t) :
    hostStep s = .ok t := by
  rw [hostStep, h]
  exact coreStep_ok_iff.2 ht

theorem hostStep_of_running {s : State} (h : s.host.running = true) : hostStep s = .error .stepDuringRun := if_pos h

/-- Settles O38: the host's step is the core's, which gives a next state, where no run is in progress. -/
theorem hostStepOutsideARunOnly : Obligations.HostStepOutsideARunOnly := by
  refine fun policy s => ⟨fun idle => ?_, hostStep_of_running⟩
  obtain ⟨t, ht⟩ := step_next s
  exact ⟨t, ht, hostStep_of_not_running idle ht⟩

/-- Settles O42: no step reads or writes the scheduler, of which `setClockSpeed` writes the rate. -/
theorem clockSpeedNeverChangesAStep : Obligations.ClockSpeedNeverChangesAStep := by
  intro policy hz s t ht
  obtain ⟨-, -, host_kept⟩ := step_keeps ht
  refine ⟨s.hostSetClockSpeed hz, rfl, rfl, ?_⟩
  rw [host_kept]
  exact step_with_host { s.host with clockRateHz := hz } ht

/-! ### A tick of a run -/

theorem endsRun_iff (policy : PcEndPolicy) (s : State) :
    endsRun policy s = true ↔ s.signal = .halt ∨ (policy = .stopAtEnd ∧ s.seqOvf = true) := by
  simp [endsRun]

theorem hostTick_of_running {policy : PcEndPolicy} {s t : State} (running : s.host.running = true)
    (ht : step s = .next t) : hostTick policy s = .ok (if endsRun policy t then t.hostStop else t) := by
  rw [hostTick, if_pos running, coreStep_ok_iff.2 ht]
  rfl

/-- `stop()` of a run in progress (R218, R215). -/
theorem State.hostStop_lifecycle {s : State} (running : s.host.running = true) :
    s.hostStop.host.lifecycle = .haltedOrStopped := by
  rw [State.hostStop, if_pos running]

/-- A tick is one step; it ends the run exactly where the halt signal or the policy does, and the lifecycle is then
`haltedOrStopped` (R217, R222). -/
theorem hostTick_cases {policy : PcEndPolicy} {s u : State} (h : hostTick policy s = .ok u) :
    ∃ t, step s = .next t ∧ { u with host := t.host } = t ∧
      (u.host.running = false ↔ t.signal = .halt ∨ (policy = .stopAtEnd ∧ t.seqOvf = true)) ∧
      (u.host.running = false → u.host.lifecycle = .haltedOrStopped) := by
  obtain ⟨running, t, ht, rfl⟩ := hostTick_ok h
  obtain ⟨-, -, host_kept⟩ := step_keeps ht
  have still_running : t.host.running = true := host_kept ▸ running
  refine ⟨t, ht, ?_⟩
  rw [← endsRun_iff]
  by_cases ends : endsRun policy t = true
  · rw [if_pos ends]
    exact ⟨t.hostStop_core, iff_of_true t.hostStop_running ends, fun _ => State.hostStop_lifecycle still_running⟩
  · rw [if_neg ends]
    have not_stopped : t.host.running ≠ false := Bool.ne_false_iff.2 still_running
    exact ⟨rfl, iff_of_false not_stopped ends, fun stopped => absurd stopped not_stopped⟩

/-- Settles O39: a tick of a run in progress has a next state, and it is one step with `stop()` after it where the run
ends. -/
theorem tickIsOneStepAndMayEndTheRun : Obligations.TickIsOneStepAndMayEndTheRun := by
  intro policy s running
  obtain ⟨v, hv⟩ := step_next s
  have tick := hostTick_of_running (policy := policy) running hv
  obtain ⟨t, ht, core, ends, lifecycle⟩ := hostTick_cases tick
  exact ⟨t, _, ht, tick, core, ends, lifecycle⟩

/-- Settles O40: under either policy a tick leaves the core as the one step does. -/
theorem policyNeverChangesTheCore : Obligations.PolicyNeverChangesTheCore := by
  intro s t u ht hu
  obtain ⟨v, hv, t_core⟩ := hostTick_core ht
  obtain ⟨w, hw, u_core⟩ := hostTick_core hu
  cases hv.symm.trans hw
  exact (congrArg (fun x : State => { x with host := u.host }) (t_core.trans u_core.symm) :)

/-! ### The end of a run -/

/-- A step that returns the halt signal leaves `PC` just past the HLT that it ran (R85, R172). -/
theorem step_halt {s t : State} (h : step s = .next t) (halt : t.signal = .halt) :
    Memory.read t.im (t.pc - 1).toNat = 0x0F ∧ t.ir = 0x0F := by
  have hlt := (step_signal_halt_iff h).1 halt
  rw [step_of_opcode (m := .hlt) hlt] at h
  have past : t.pc = s.pc + 1 := exec_pc h
  obtain ⟨-, im_kept, -⟩ := exec_keeps h
  refine ⟨?_, exec_ir h⟩
  rw [past, BitVec.add_sub_cancel, im_kept]
  exact hlt

/-- Settles O43: nothing in a run writes `IM`, and the tick that ends it is one step, on an HLT. -/
theorem completedRunStopsJustPastAnHlt : Obligations.CompletedRunStopsJustPastAnHlt := by
  rintro policy s t ⟨u, run, tick, stopped, halt⟩
  obtain ⟨v, hv, core, -, lifecycle⟩ := hostTick_cases tick
  have past_hlt := step_halt hv (core ▸ halt)
  rw [← core] at past_hlt
  obtain ⟨at_hlt, ir⟩ := past_hlt
  exact ⟨(hostTick_im tick).trans run.keeps.2, at_hlt, ir, lifecycle stopped⟩

/-- Settles O56: of the operations that can come during a run, `stop`, `reset` and the loads end it, a tick ends it where
its step does, and the others leave it in progress. -/
theorem runEndsExactlyAtItsThreeEnds : Obligations.RunEndsExactlyAtItsThreeEnds := by
  intro policy op s t running h
  cases op with
  | reset => cases h; simp [s.hostReset_host]
  | load image sourceMap =>
    obtain ⟨-, rfl⟩ := hostLoad_ok h
    simp [State.loadImage_host]
  | assembleLoad text =>
    obtain ⟨r, -, -, rfl⟩ := hostAssembleLoad_ok h
    simp [State.loadImage_host]
  | step => exact absurd (running.symm.trans (hostStep_ok h).1) Bool.noConfusion
  | run => cases h; simp [s.hostRun_core.1]
  | tick =>
    obtain ⟨u, -, core, ends, -⟩ := hostTick_cases h
    rw [ends, ← core]
    simp
  | stop => cases h; simp [s.hostStop_running]
  | setClockSpeed hz =>
    cases h
    simp [show (s.hostSetClockSpeed hz).host.running = true from running]

/-! ### The invariants -/

/-- The memory invariant speaks of the two memories alone. -/
theorem State.MemInv.of_eq {s t : State} (inv : s.MemInv) (im : t.im = s.im) (dm : t.dm = s.dm) : t.MemInv := by
  rwa [State.MemInv, im, dm]

theorem State.hostStop_memInv {s : State} (inv : s.MemInv) : s.hostStop.MemInv :=
  inv.of_eq s.hostStop_im (congrArg State.dm s.hostStop_core :)

theorem State.hostRun_memInv {s : State} (inv : s.MemInv) : s.hostRun.MemInv :=
  inv.of_eq s.hostRun_im (congrArg State.dm s.hostRun_core.2 :)

theorem hostTick_memInv {policy : PcEndPolicy} {s t : State} (inv : s.MemInv) (h : hostTick policy s = .ok t) :
    t.MemInv := by
  obtain ⟨u, hu, core⟩ := hostTick_core h
  exact (step_memInv inv hu).of_eq (congrArg State.im core :) (congrArg State.dm core :)

/-- After a load `IM` is a copy of the image into the cleared memory, and `DM` is cleared (R212). -/
theorem State.loadImage_memInv {image : List Byte} (fits : image.length ≤ 256) (sourceMap : List (Nat × Nat))
    (s : State) : (s.loadImage image sourceMap).MemInv :=
  ⟨State.coreLoad_im_wf image s.hostStop fits, Memory.wf_nil⟩

theorem hostApply_memInv {policy : PcEndPolicy} {op : HostOp} {s t : State} (inv : s.MemInv)
    (h : hostApply policy op s = .ok t) : t.MemInv := by
  cases op with
  | reset => cases h; exact ⟨Memory.wf_nil, Memory.wf_nil⟩
  | load image sourceMap =>
    obtain ⟨fits, rfl⟩ := hostLoad_ok h
    exact State.loadImage_memInv fits sourceMap s
  | assembleLoad text =>
    obtain ⟨r, -, fits, rfl⟩ := hostAssembleLoad_ok h
    exact State.loadImage_memInv fits r.sourceMap s
  | step => exact step_memInv inv (hostStep_ok h).2
  | run => cases h; exact State.hostRun_memInv inv
  | tick => exact hostTick_memInv inv h
  | stop => cases h; exact State.hostStop_memInv inv
  | setClockSpeed hz => cases h; exact inv

/-- The host invariant speaks of `running` and the lifecycle alone. -/
theorem State.HostInv.of_eq {s t : State} (inv : s.HostInv) (running : t.host.running = s.host.running)
    (lifecycle : t.host.lifecycle = s.host.lifecycle) : t.HostInv := by
  rwa [State.HostInv, running, lifecycle]

/-- With no run in progress, any lifecycle but `running` agrees (R215). -/
theorem State.hostInv_of_not_running {s : State} (running : s.host.running = false)
    (lifecycle : s.host.lifecycle ≠ .running) : s.HostInv := by
  rw [State.HostInv, running]
  exact iff_of_false Bool.noConfusion lifecycle

theorem State.hostStop_hostInv {s : State} (inv : s.HostInv) : s.hostStop.HostInv := by
  obtain ⟨-, ended⟩ | ⟨-, kept⟩ := s.hostStop_cases
  · rw [ended]
    exact State.hostInv_of_not_running rfl Lifecycle.noConfusion
  · rwa [kept]

theorem State.hostRun_hostInv {s : State} (inv : s.HostInv) : s.hostRun.HostInv := by
  unfold State.hostRun
  split
  · exact inv
  · exact iff_of_true rfl rfl

theorem State.loadImage_hostInv (image : List Byte) (sourceMap : List (Nat × Nat)) (s : State) :
    (s.loadImage image sourceMap).HostInv :=
  State.hostInv_of_not_running s.hostStop_running Lifecycle.noConfusion

theorem step_hostInv {s t : State} (inv : s.HostInv) (h : step s = .next t) : t.HostInv := by
  obtain ⟨-, -, host_kept⟩ := step_keeps h
  exact inv.of_eq (congrArg Scheduler.running host_kept) (congrArg Scheduler.lifecycle host_kept)

theorem hostTick_hostInv {policy : PcEndPolicy} {s t : State} (inv : s.HostInv) (h : hostTick policy s = .ok t) :
    t.HostInv := by
  obtain ⟨-, u, hu, rfl⟩ := hostTick_ok h
  have kept := step_hostInv inv hu
  split
  · exact State.hostStop_hostInv kept
  · exact kept

theorem hostApply_hostInv {policy : PcEndPolicy} {op : HostOp} {s t : State} (inv : s.HostInv)
    (h : hostApply policy op s = .ok t) : t.HostInv := by
  cases op with
  | reset => cases h; exact State.hostInv_of_not_running s.hostStop_running Lifecycle.noConfusion
  | load image sourceMap => obtain ⟨-, rfl⟩ := hostLoad_ok h; exact s.loadImage_hostInv image sourceMap
  | assembleLoad text =>
    obtain ⟨r, -, -, rfl⟩ := hostAssembleLoad_ok h
    exact s.loadImage_hostInv r.image r.sourceMap
  | step => exact step_hostInv inv (hostStep_ok h).2
  | run => cases h; exact State.hostRun_hostInv inv
  | tick => exact hostTick_hostInv inv h
  | stop => cases h; exact State.hostStop_hostInv inv
  | setClockSpeed hz => cases h; exact inv

/-- Settles O46: each operation is made of `stop()`, steps, resets, loads and writes of the scheduler, which keep both
invariants. -/
theorem hostOperationsKeepTheInvariants : Obligations.HostOperationsKeepTheInvariants :=
  fun _ _ _ _ mem host h => ⟨hostApply_memInv mem h, hostApply_hostInv host h⟩

end Sys2Proof.Machine
end

section
/-! The ports (10_state.md, section 11): what the data memory port tells (R39), and a load by clock edges (R214). -/

namespace Sys2Proof.Machine

/-! ### The data memory port -/

/-- Where STA's opcode byte stands at `PC`, `dmem_addr` is the operand byte (R39). -/
theorem dmemAddr_of_sta {s : State} (h : s.fetchByte s.pc = 0x04) : dmemAddr s = some (s.fetchByte (s.pc + 1)) := by
  have two : lengthOfOpcode (imemRdata0 s) = 2 := (congrArg lengthOfOpcode h).trans rfl
  exact if_pos two

/-- An edge that performs a step gives what the step gives (R39). -/
theorem clockEdge_step {i : EdgeInputs} {s t : State} (h : clockEdge i s = .ok t) (rst : i.rst = false)
    (stepEn : i.stepEn = true) : step s = .next t := by
  obtain ⟨reset, -⟩ | ⟨-, -, performed⟩ | ⟨-, disabled, -⟩ := clockEdge_ok h
  · rw [rst] at reset
    cases reset
  · exact performed
  · rw [stepEn] at disabled
    cases disabled

/-- An edge without `rst` leaves `DM`, unless `dmem_we` is 1 (R39). -/
theorem clockEdge_dm {i : EdgeInputs} {s t : State} (h : clockEdge i s = .ok t) (rst : i.rst = false)
    (we : dmemWe i s = false) : t.dm = s.dm := by
  obtain ⟨reset, -⟩ | ⟨-, stepEn, performed⟩ | ⟨-, -, rfl⟩ := clockEdge_ok h
  · rw [rst] at reset
    cases reset
  · have not_sta : s.fetchByte s.pc ≠ 0x04 :=
      fun sta => Bool.eq_false_iff.1 we ((dmemWe_iff i s).2 ⟨stepEn, rst, sta⟩)
    rw [step_dm performed, if_neg not_sta]
  · rfl

/-- Settles O48: `dmem_we` is 1 where the edge performs STA's step, which writes `A` at the operand byte. -/
theorem dataPortTellsTheStore : Obligations.DataPortTellsTheStore := by
  refine fun i s t canonical h => ⟨dmemWe_iff i s, fun we => ?_, fun we rst => clockEdge_dm h rst we⟩
  obtain ⟨stepEn, rst, sta⟩ := (dmemWe_iff i s).1 we
  have performed := clockEdge_step h rst stepEn
  exact ⟨performed, s.fetchByte (s.pc + 1), dmemAddr_of_sta sta, rfl, step_sta_read canonical performed sta⟩

/-! ### A load through the ports -/

theorem clockEdge_of_rst {i : EdgeInputs} (h : i.rst = true) (s : State) : clockEdge i s = .ok s.coreReset := if_pos h

/-- The edges of a copy write its bytes to successive addresses (R214). -/
theorem clockEdges_writeEdges (image : List Byte) : ∀ (base : Nat) (s : State), base + image.length ≤ 256 →
    clockEdges (writeEdges base image) s = .ok { s with im := Memory.writeBytes s.im base image } := by
  induction image with
  | nil => exact fun _ _ _ => rfl
  | cons v vs ih =>
    intro base s fits
    rw [List.length_cons] at fits
    have address : (BitVec.ofNat 8 base).toNat = base := Nat.mod_eq_of_lt (by omega)
    calc clockEdges (writeEdges base (v :: vs)) s
        = clockEdges (writeEdges (base + 1) vs) { s with im := Memory.write s.im (BitVec.ofNat 8 base).toNat v } := rfl
      _ = .ok { s with im := Memory.writeBytes s.im base (v :: vs) } := by
        rw [address, ih (base + 1) _ (by omega)]
        rfl

/-- Settles O49: the first edge is the reset, and the others copy the image into `IM`. -/
theorem loadThroughThePorts : Obligations.LoadThroughThePorts := by
  refine ⟨fun image s fits => ?_, fun i s rst => clockEdge_of_rst rst s⟩
  rw [loadEdges, clockEdges, clockEdge_of_rst rfl]
  exact clockEdges_writeEdges image 0 s.coreReset (by omega)

end Sys2Proof.Machine
end

section
/-! The assembler (30_encoding.md, section 4): an image is instructions (R97, R103), a text with an error loads nothing
(R100), and mnemonics match without case (R93). -/

namespace Sys2Proof.Assembler

/-! ### What an image is made of -/

theorem resolveItem_ok {labels : List (Token × Nat)} {it : Item} {i : Instr} (h : resolveItem labels it = .ok i) :
    ∃ n, i = it.mnemonic.toInstr n := by
  unfold resolveItem at h
  split at h
  · cases h; exact ⟨0, rfl⟩
  · split at h <;> cases h
    exact ⟨_, rfl⟩

/-- The program of pass 2 is made of instructions with mnemonics (R97). -/
theorem exists_toInstr_of_mem_resolvedInstrs {labels : List (Token × Nat)} {items : List Item} {i : Instr}
    (h : i ∈ resolvedInstrs labels items) : ∃ (m : Mnemonic) (n : Byte), i = m.toInstr n := by
  induction items with
  | nil => cases h
  | cons it its ih =>
    unfold resolvedInstrs at h
    split at h
    · next j resolved =>
      obtain rfl | later := List.mem_cons.1 h
      · exact ⟨it.mnemonic, resolveItem_ok resolved⟩
      · exact ih later
    · exact ih h

/-- Settles O51: the image is the encodings of the instructions that pass 2 resolves. -/
theorem assembledImageIsInstructions : Obligations.AssembledImageIsInstructions := by
  intro text r h
  obtain ⟨-, -, -, rfl⟩ := assemble_ok_iff.1 h
  refine ⟨_, fun i mem => ?_, rfl⟩
  obtain ⟨m, n, rfl⟩ := exists_toInstr_of_mem_resolvedInstrs mem
  exact ⟨m.toInstr_wellFormed n, by rw [m.toInstr_mnemonic?]; rfl⟩

/-! ### A text with an error -/

/-- A text that does not assemble has an error, since one without any assembles (R100). -/
theorem assemble_error_ne_nil {text : String} {errors : List AsmError} (h : assemble text = .error errors) :
    errors ≠ [] := by
  intro empty
  have none_left := (assemble_error h).symm.trans empty
  simp only [List.append_eq_nil_iff, lengthErrors_pass1_eq_nil] at none_left
  obtain ⟨⟨pass1_ok, pass2_ok⟩, fits⟩ := none_left
  cases h.symm.trans (assemble_ok_iff.2 ⟨pass1_ok, pass2_ok, fits, rfl⟩)

/-- Settles O52: the host refuses a text that does not assemble, with its errors, of which there is one at least. -/
theorem failedAssemblyLoadsNothing : Obligations.FailedAssemblyLoadsNothing := by
  intro policy text errors s h
  refine ⟨assemble_error_ne_nil h, ?_⟩
  rw [Machine.hostApply, Machine.hostAssembleLoad, h]

/-! ### Mnemonics -/

theorem mem_mnemonic_all (m : Mnemonic) : m ∈ Mnemonic.all := by
  cases m <;> decide

/-- No two mnemonics share a name (R73). -/
theorem mnemonic_eq_of_name_eq {m m' : Mnemonic} (h : m.name.toList = m'.name.toList) : m = m' := by
  have distinct : (Mnemonic.all.map fun m => m.name.toList).Nodup := by decide
  exact List.inj_on_of_nodup_map distinct (mem_mnemonic_all m) (mem_mnemonic_all m') h

/-- A token that the lookup finds is the name of the mnemonic found, its letters in capitals (R93). -/
theorem capitals_of_mnemonicOfToken {t : Token} {m : Mnemonic} (h : mnemonicOfToken t = some m) :
    t.map Char.toUpper = m.name.toList := by
  have same_name := List.find?_some h
  exact (eq_of_beq same_name).symm

/-- Settles O53: the lookup gives a mnemonic with the token's name in capitals, and there is at most one. -/
theorem mnemonicsMatchWithoutCase : Obligations.MnemonicsMatchWithoutCase := by
  refine ⟨rfl, fun t m => ⟨capitals_of_mnemonicOfToken, fun capitals => ?_⟩⟩
  cases found : mnemonicOfToken t with
  | none =>
    have no_match := List.find?_eq_none.1 found m (mem_mnemonic_all m)
    exact absurd (beq_iff_eq.2 capitals.symm) no_match
  | some m' => rw [mnemonic_eq_of_name_eq ((capitals_of_mnemonicOfToken found).symm.trans capitals)]

end Sys2Proof.Assembler
end
